-- ==== Sys2Proof/Word.lean ====
section
/-! DEFINITION. The word types of the walker: its 64-bit values, its bytes of memory, its 136-bit command word and its
144-bit response word (00_scope.md R7, 30_encoding.md R61). Every value is an unsigned integer of stated width. -/

namespace Sys2Proof

/-- A 64-bit value: a virtual address, a table root, a paging entry, a physical address. -/
abbrev Word := BitVec 64

/-- A byte of the memory behind the read port (20_memory.md R44). -/
abbrev Byte := BitVec 8

/-- A command word `cmd[135:0]` (30_encoding.md R62). -/
abbrev CmdWord := BitVec 136

/-- The bits `rsp[143:0]` of a response word (30_encoding.md R67); the `cause` field stands beside them. -/
abbrev RspBits := BitVec 144

end Sys2Proof
end

