-- ==== Sys2Proof/Syntax.lean ====
section
/-! DEFINITION. The instructions of the walker: one constructor per row of spec/opcode_table.json. Eight are the
commands of 30_encoding.md R63; ten are the entry classes of R78, the instructions a walk takes from its read port. -/

namespace Sys2Proof

/-- The four levels, in walk order (00_scope.md R9, 30_encoding.md R66). -/
inductive Level where
  | pml4
  | pdpte
  | pde
  | pte
  deriving DecidableEq, Repr

/-- The instructions. An entry class carries the whole 64-bit entry; `Instr.wf` says that the entry is in the class. -/
inductive Instr where
  /-- TRANSLATE (43_walker.md R109). -/
  | translate (root va : Word)
  /-- DECODE_ENTRY (42_entry_decoder.md R103). -/
  | decodeEntry (lvl : Level) (entry : Word)
  /-- GET_PML4_INDEX (41_bitfield_layout.md R89). -/
  | getPml4Index (va : Word)
  /-- GET_PDPTE_INDEX (R90). -/
  | getPdpteIndex (va : Word)
  /-- GET_PDE_INDEX (R91). -/
  | getPdeIndex (va : Word)
  /-- GET_PTE_INDEX (R92). -/
  | getPteIndex (va : Word)
  /-- GET_TABLE_BASE (R93). -/
  | getTableBase (entry : Word)
  /-- COMPUTE_ENTRY_ADDRESS (R94). -/
  | computeEntryAddress (base index : Word)
  /-- PML4E.NP: an entry read at level 0 that is not present (42_entry_decoder.md R104). -/
  | pml4eNp (entry : Word)
  /-- PML4E.TABLE: a present entry read at level 0 (R104). -/
  | pml4eTable (entry : Word)
  /-- PDPTE.NP (R105). -/
  | pdpteNp (entry : Word)
  /-- PDPTE.TABLE (R105). -/
  | pdpteTable (entry : Word)
  /-- PDPTE.1G: a 1 GiB leaf (R105). -/
  | pdpte1g (entry : Word)
  /-- PDE.NP (R106). -/
  | pdeNp (entry : Word)
  /-- PDE.TABLE (R106). -/
  | pdeTable (entry : Word)
  /-- PDE.2M: a 2 MiB leaf (R106). -/
  | pde2m (entry : Word)
  /-- PTE.NP (R107). -/
  | pteNp (entry : Word)
  /-- PTE.4K: a 4 KiB leaf (R107). -/
  | pte4k (entry : Word)
  deriving DecidableEq, Repr

end Sys2Proof
end

