-- ==== Sys2Proof/WellFormed.lean ====
section
/-! DEFINITION. Which instructions are well formed. A command is, whatever its operands (30_encoding.md R64, R65). An
entry class is when its entry is in the class: `(entry & mask) = match` of R78. -/

namespace Sys2Proof

/-- The entry has the bits `pattern` under the mask `mask` (30_encoding.md R78). -/
def inClass (mask pattern entry : Word) : Bool := entry &&& mask == pattern

/-- Well-formedness of an instruction. -/
def Instr.wf : Instr → Bool
  | .translate _ _ => true
  | .decodeEntry _ _ => true
  | .getPml4Index _ => true
  | .getPdpteIndex _ => true
  | .getPdeIndex _ => true
  | .getPteIndex _ => true
  | .getTableBase _ => true
  | .computeEntryAddress _ _ => true
  | .pml4eNp e => inClass 0x1#64 0x0#64 e
  | .pml4eTable e => inClass 0x1#64 0x1#64 e
  | .pdpteNp e => inClass 0x1#64 0x0#64 e
  | .pdpteTable e => inClass 0x81#64 0x01#64 e
  | .pdpte1g e => inClass 0x81#64 0x81#64 e
  | .pdeNp e => inClass 0x1#64 0x0#64 e
  | .pdeTable e => inClass 0x81#64 0x01#64 e
  | .pde2m e => inClass 0x81#64 0x81#64 e
  | .pteNp e => inClass 0x1#64 0x0#64 e
  | .pte4k e => inClass 0x1#64 0x1#64 e

end Sys2Proof
end

