-- ==== Sys2Proof/Decode.lean ====
section
/-! DEFINITION. The decoder and the encoder. The walker decodes two kinds of word (30_encoding.md R61): a 136-bit
command word taken on `cmd` (R62, R63) and a 64-bit entry taken on `rd_rsp`, read at a level (R72 to R78). Every word of
both kinds has a meaning (R65, R79); a word of another width is rejected by name. -/

namespace Sys2Proof

/-! ### Levels (R66) -/

/-- The two-bit code of a level: 0 = PML4, 1 = PDPTE, 2 = PDE, 3 = PTE (R66). -/
def Level.code : Level → BitVec 2
  | .pml4 => 0
  | .pdpte => 1
  | .pde => 2
  | .pte => 3

/-- The level a two-bit code names; all four values are assigned (R66). -/
def Level.ofCode (c : BitVec 2) : Level :=
  if c = 0 then .pml4 else if c = 1 then .pdpte else if c = 2 then .pde else .pte

/-! ### The command word (R62) -/

/-- `cmd[2:0]`, the command. -/
def cmdOp (w : CmdWord) : BitVec 3 := w.extractLsb' 0 3

/-- `cmd[4:3]`, a level; only DECODE_ENTRY reads it. -/
def cmdLvl (w : CmdWord) : BitVec 2 := w.extractLsb' 3 2

/-- `cmd[71:8]`, the first operand. -/
def cmdOpa (w : CmdWord) : Word := w.extractLsb' 8 64

/-- `cmd[135:72]`, the second operand. -/
def cmdOpb (w : CmdWord) : Word := w.extractLsb' 72 64

/-- The word `{opb, opa, hdr}` of the given fields (R62, R84), reserved bits 7:5 zero. -/
def cmdWord (op : BitVec 3) (lvl : BitVec 2) (opa opb : Word) : CmdWord := opb ++ opa ++ (0#3 ++ lvl ++ op)

/-- The command a command word names (R63). Bits 7:5 and the ignored fields are not read (R64, R65). The last arm is
op 7: the field has three bits. -/
def decodeCmd (w : CmdWord) : Instr :=
  match (cmdOp w).toNat with
  | 0 => .translate (cmdOpa w) (cmdOpb w)
  | 1 => .decodeEntry (Level.ofCode (cmdLvl w)) (cmdOpa w)
  | 2 => .getPml4Index (cmdOpa w)
  | 3 => .getPdpteIndex (cmdOpa w)
  | 4 => .getPdeIndex (cmdOpa w)
  | 5 => .getPteIndex (cmdOpa w)
  | 6 => .getTableBase (cmdOpa w)
  | _ => .computeEntryAddress (cmdOpa w) (cmdOpb w)

/-! ### The entries (R72 to R78) -/

/-- The class of the entry `e` read at level `L` (R78): bit 0 is Present, bit 7 is PS at PDPTE and PDE only (R72). -/
def decodeEntryAt (L : Level) (e : Word) : Instr :=
  match L with
  | .pml4 => if e.getLsbD 0 then .pml4eTable e else .pml4eNp e
  | .pdpte => if e.getLsbD 0 then (if e.getLsbD 7 then .pdpte1g e else .pdpteTable e) else .pdpteNp e
  | .pde => if e.getLsbD 0 then (if e.getLsbD 7 then .pde2m e else .pdeTable e) else .pdeNp e
  | .pte => if e.getLsbD 0 then .pte4k e else .pteNp e

/-! ### The words the walker takes from its ports -/

/-- A word as the walker takes it: a command word from `cmd`, or an entry from `rd_rsp` read at a level. -/
inductive PortWord where
  | cmd (w : CmdWord)
  | entry (lvl : Level) (e : Word)
  deriving DecidableEq, Repr

/-- The instruction a port word stands for. It is total: no word of either kind is illegal (R65, R79). -/
def decode : PortWord → Instr
  | .cmd w => decodeCmd w
  | .entry L e => decodeEntryAt L e

/-- The port word of an instruction: the command's word with every reserved bit and ignored field 0 (R63, R80), or the
entry at the class's level. -/
def encode : Instr → PortWord
  | .translate root va => .cmd (cmdWord 0 0 root va)
  | .decodeEntry L e => .cmd (cmdWord 1 L.code e 0)
  | .getPml4Index va => .cmd (cmdWord 2 0 va 0)
  | .getPdpteIndex va => .cmd (cmdWord 3 0 va 0)
  | .getPdeIndex va => .cmd (cmdWord 4 0 va 0)
  | .getPteIndex va => .cmd (cmdWord 5 0 va 0)
  | .getTableBase e => .cmd (cmdWord 6 0 e 0)
  | .computeEntryAddress base index => .cmd (cmdWord 7 0 base index)
  | .pml4eNp e => .entry .pml4 e
  | .pml4eTable e => .entry .pml4 e
  | .pdpteNp e => .entry .pdpte e
  | .pdpteTable e => .entry .pdpte e
  | .pdpte1g e => .entry .pdpte e
  | .pdeNp e => .entry .pde e
  | .pdeTable e => .entry .pde e
  | .pde2m e => .entry .pde e
  | .pteNp e => .entry .pte e
  | .pte4k e => .entry .pte e

/-- The same command word with the reserved bits and the fields its command ignores set to 0 (R65). -/
def clearIgnored (w : CmdWord) : CmdWord :=
  let op := cmdOp w
  cmdWord op (if op = 1 then cmdLvl w else 0) (cmdOpa w) (if op = 0 ∨ op = 7 then cmdOpb w else 0)

/-! ### The opcode table (spec/opcode_table.json) -/

/-- Where a row's word is taken: a command on `cmd`, or an entry read at a level. -/
inductive RowPort where
  | cmd
  | entryAt (lvl : Level)
  deriving DecidableEq, Repr

/-- One row of the opcode table. For a command the mask applies to `hdr = cmd[7:0]`, for an entry to the entry. -/
structure Row where
  mnemonic : String
  port : RowPort
  mask : Nat
  pattern : Nat
  deriving DecidableEq, Repr

/-- The row of an instruction. -/
def Instr.row : Instr → Row
  | .translate _ _ => ⟨"TRANSLATE", .cmd, 0x07, 0x00⟩
  | .decodeEntry _ _ => ⟨"DECODE_ENTRY", .cmd, 0x07, 0x01⟩
  | .getPml4Index _ => ⟨"GET_PML4_INDEX", .cmd, 0x07, 0x02⟩
  | .getPdpteIndex _ => ⟨"GET_PDPTE_INDEX", .cmd, 0x07, 0x03⟩
  | .getPdeIndex _ => ⟨"GET_PDE_INDEX", .cmd, 0x07, 0x04⟩
  | .getPteIndex _ => ⟨"GET_PTE_INDEX", .cmd, 0x07, 0x05⟩
  | .getTableBase _ => ⟨"GET_TABLE_BASE", .cmd, 0x07, 0x06⟩
  | .computeEntryAddress _ _ => ⟨"COMPUTE_ENTRY_ADDRESS", .cmd, 0x07, 0x07⟩
  | .pml4eNp _ => ⟨"PML4E.NP", .entryAt .pml4, 0x1, 0x0⟩
  | .pml4eTable _ => ⟨"PML4E.TABLE", .entryAt .pml4, 0x1, 0x1⟩
  | .pdpteNp _ => ⟨"PDPTE.NP", .entryAt .pdpte, 0x1, 0x0⟩
  | .pdpteTable _ => ⟨"PDPTE.TABLE", .entryAt .pdpte, 0x81, 0x01⟩
  | .pdpte1g _ => ⟨"PDPTE.1G", .entryAt .pdpte, 0x81, 0x81⟩
  | .pdeNp _ => ⟨"PDE.NP", .entryAt .pde, 0x1, 0x0⟩
  | .pdeTable _ => ⟨"PDE.TABLE", .entryAt .pde, 0x81, 0x01⟩
  | .pde2m _ => ⟨"PDE.2M", .entryAt .pde, 0x81, 0x81⟩
  | .pteNp _ => ⟨"PTE.NP", .entryAt .pte, 0x1, 0x0⟩
  | .pte4k _ => ⟨"PTE.4K", .entryAt .pte, 0x1, 0x1⟩

/-- Does a port word meet a row: the row's port, and the row's bits under its mask? -/
def Row.accepts (r : Row) : PortWord → Bool
  | .cmd w => r.port == .cmd && (w.extractLsb' 0 8).toNat &&& r.mask == r.pattern
  | .entry L e => r.port == .entryAt L && e.toNat &&& r.mask == r.pattern

/-! ### Words by width -/

/-- Why bits are no word of the walker. -/
inductive DecodeReject where
  /-- The walker takes words of 136 bits (commands) and of 64 bits (entries) only (R61, R82). -/
  | notAPortWidth
  deriving DecidableEq, Repr

/-- The port word of a value of `width` bits; an entry needs the level it was read at. -/
def portWord (L : Level) (width bits : Nat) : Except DecodeReject PortWord :=
  if width = 136 then .ok (.cmd (BitVec.ofNat 136 bits))
  else if width = 64 then .ok (.entry L (BitVec.ofNat 64 bits))
  else .error .notAPortWidth

/-- The width of the word the host means by `nbits` bits: 64 bits are an entry, up to 136 bits are a command word whose
upper bits are 0 (log entry 13). -/
def tableWidth (nbits : Nat) : Nat :=
  if nbits = 64 then 64 else if nbits ≤ 136 then 136 else nbits

/-- The instruction the decoder reads from `nbits` bits `w`, numbered as the opcode table numbers them. An entry word
(64 bits) is read as an entry of the first level, PML4 (log entry 13). -/
def decodeTableWord (nbits w : Nat) : Option Instr :=
  match portWord .pml4 (tableWidth nbits) (w % 2 ^ nbits) with
  | .ok p => some (decode p)
  | .error _ => none

end Sys2Proof
end

