-- ==== Sys2Proof/Config.lean ====
section
/-! DEFINITION. What the platform fixes and what the spec leaves open (00_scope.md R6): the type of a read's cause, the
byte order of the memory behind the read port, what a byte nobody has written reads as, and the free values of the
registers after a reset during a run. -/

namespace Sys2Proof

/-- The parameter `ReadCause` (00_scope.md R6, decision D11) at one value. The machine takes the type of a read's cause
as an argument, `Cause` in every definition from the state to the step (`State Cause`, `execOf`, `stepOf`); this is the
type it is given where a closed machine is asked for. DESIGN CHOICE (log entry 8): the natural numbers. -/
abbrev ReadCause := Nat

/-- The platform parameter `MEM_BYTE_ORDER` (00_scope.md R6, 20_memory.md R44). The spec gives the little-endian order
as the default; the other order is a DESIGN CHOICE (log entry 6). -/
inductive ByteOrder where
  | little
  | big
  deriving DecidableEq, Repr

/-- What an unlisted byte of the memory behind the read port reads as. DESIGN CHOICE (log entry 3): the spec leaves the
contents of that memory to the platform (20_memory.md R47); 0 is the choice of the test fixtures of 95_test_vectors.md. -/
def Config.unlistedByte : Byte := 0

/-! The registers become unspecified when reset is asserted (70_reset_and_hazards.md R151, 93_implementation_defined.md
I16: any value). Each is a FREE VALUE, a constant with no body applied to the model's counter `freeIdx` (log entry 7). -/

/-- `cmd_q` after the n-th reset of a run. -/
opaque Config.freeCmdQ : Nat → CmdWord

/-- `va_q` after the n-th reset of a run. -/
opaque Config.freeVaQ : Nat → Word

/-- `base_q` after the n-th reset of a run. -/
opaque Config.freeBaseQ : Nat → Word

/-- The code of `lvl_q` after the n-th reset of a run. -/
opaque Config.freeLvlQ : Nat → BitVec 2

/-- `ea_q` after the n-th reset of a run. -/
opaque Config.freeEaQ : Nat → Word

end Sys2Proof
end

