-- ==== Sys2Proof/Machine/State.lean ====
section
/-! DEFINITION. The state of the machine: the walker's registers (10_state.md R16), its four ports (R14), and the agents
around it (R13) as plain data. Nothing here is a function; two states can be compared. The type of a read's cause is the
argument `Cause` (00_scope.md R6, decision D11), which is `ReadCause` unless it is given. -/

namespace Sys2Proof.Machine

/-- The sequencer state `st` (10_state.md R16, R17). -/
inductive St where
  | idle
  | walk
  | rdWait
  | resp
  deriving DecidableEq, Repr

/-- The page sizes (00_scope.md R5, 30_encoding.md R68). -/
inductive PageSize where
  | size4K
  | size2M
  | size1G
  deriving DecidableEq, Repr

/-- The only two fault reasons (30_encoding.md R69, 60_exceptions.md R131). -/
inductive Reason where
  | notPresent
  | readError
  deriving DecidableEq, Repr

/-- The status of a response; code 3 is never produced (30_encoding.md R67). -/
inductive Status where
  | value
  | resolved
  | fault
  deriving DecidableEq, Repr

/-- A response word, field by field as 30_encoding.md R67 lists them. A field the status does not use is the one whose
code is 0, or `none`; `Response.bits` gives the 144 bits. -/
structure Response (Cause : Type := ReadCause) where
  status : Status
  size : PageSize
  level : Level
  reason : Reason
  present : Bool
  isLeaf : Bool
  value : Word
  flags : Word
  cause : Option Cause
  deriving DecidableEq, Repr

/-- What the memory responder answers on `rd_rsp` (20_memory.md R41, 30_encoding.md R83). -/
inductive ReadResp (Cause : Type := ReadCause) where
  | ok (v : Word)
  | err (c : Cause)
  deriving DecidableEq, Repr

/-- The moves of the agents outside the walker (60_exceptions.md R147), each made between two walker steps. -/
inductive EnvMove (Cause : Type := ReadCause) where
  /-- The host offers one more command word on `cmd`; any word is allowed. -/
  | command (w : CmdWord)
  /-- The host stops (`true`) or resumes (`false`) taking responses. -/
  | hostBusy (b : Bool)
  /-- The memory responder stops or resumes taking requests and answering from the image. -/
  | memBusy (b : Bool)
  /-- The memory responder answers the outstanding read with any value or any error. -/
  | answer (r : ReadResp Cause)
  /-- Another agent changes one byte of the memory behind the read port. -/
  | writeMem (addr : BitVec 52) (b : Byte)
  /-- The platform makes reads at an address fail with a cause, or work again. -/
  | failAt (addr : BitVec 52) (c : Option Cause)
  /-- Reset is asserted (70_reset_and_hazards.md R151). -/
  | reset
  deriving DecidableEq, Repr

/-- The memory behind the read port: (address, byte) pairs in canonical form (`Memory.wf` in Machine/Ops.lean). An
address not listed reads `Config.unlistedByte`. -/
abbrev Memory := List Host.Cell

/-- The machine's state. -/
structure State (Cause : Type := ReadCause) where
  /-- `st`, the sequencer state (R17). -/
  st : St
  /-- `cmd_q`, the command word latched at acceptance (R18). -/
  cmdQ : CmdWord
  /-- `va_q`, the virtual address of the TRANSLATE (R18). -/
  vaQ : Word
  /-- `base_q`, the base of the table at the current level (R19). -/
  baseQ : Word
  /-- `lvl_q`, the level being read (R20). -/
  lvlQ : Level
  /-- `ea_q`, the address of the read outstanding or about to issue (R21). -/
  eaQ : Word
  /-- `rsp_q`, the response waiting for the host, or empty (R22, R32). -/
  rspQ : Option (Response Cause)
  /-- Port `cmd`: the command words the host offers, oldest first. -/
  cmd : List CmdWord
  /-- Port `rd_rsp`: the response offered for the outstanding read. -/
  rdRsp : Option (ReadResp Cause)
  /-- Port `rd_req`: the addresses transferred so far, oldest first (R145: the host may observe them). -/
  rdReqLog : List Word
  /-- Port `rsp`: the responses transferred so far, oldest first. -/
  rspLog : List (Response Cause)
  /-- The moves the outside agents have still to make: one batch before each walker step. -/
  env : List (List (EnvMove Cause))
  /-- The host is not taking responses. -/
  hostBusy : Bool
  /-- The responder is neither taking requests nor answering from the image. -/
  memBusy : Bool
  /-- The memory behind the read port. -/
  mem : Memory
  /-- The addresses whose reads fail, with the cause. -/
  failing : List (Nat × Cause)
  /-- The platform parameter MEM_BYTE_ORDER (20_memory.md R44). -/
  byteOrder : ByteOrder
  /-- The model's own counter of the free values drawn so far (log entry 7). -/
  freeIdx : Nat
  deriving DecidableEq, Repr

/-- Reasons for which the machine stops with a fault: there are none. A walk fault is a response, not a trap
(60_exceptions.md R138), and no other fault exists (R134). No meaning and no step raises one; safe. -/
inductive Fault where
  deriving DecidableEq, Repr

/-- Reasons for which the model gives no next state. -/
inductive Refusal where
  /-- Raised by an arm of `exec` for an instruction that has no meaning yet. No arm raises it now; safe. -/
  | notModelled (mnemonic : String)
  /-- Raised by `applyMove` for a move `answer` with no read outstanding, or with one answered already: the platform
  breaks the one-request, one-response contract (93_implementation_defined.md I9, I17: `refuse`). No instruction
  raises it; safe (the run is excluded, as the spec says). -/
  | unsolicitedReadResponse
  deriving DecidableEq, Repr

/-- The state after reset (10_state.md R32): IDLE, no response, no read requested. The registers R32 leaves unspecified
hold 0 (log entry 1); the agents around the walker have done nothing yet (log entries 2 to 4). -/
def State.resetOf (Cause : Type) : State Cause where
  st := .idle
  cmdQ := 0
  vaQ := 0
  baseQ := 0
  lvlQ := .pml4
  eaQ := 0
  rspQ := none
  cmd := []
  rdRsp := none
  rdReqLog := []
  rspLog := []
  env := []
  hostBusy := false
  memBusy := false
  mem := []
  failing := []
  byteOrder := .little
  freeIdx := 0

/-- The state after reset, with `ReadCause` for the type of the causes. -/
def State.reset : State := State.resetOf ReadCause

end Sys2Proof.Machine
end

