-- ==== Sys2Proof/Machine/Operands.lean ====
section
/-! DEFINITION. The Bitfield Layout (41_bitfield_layout.md): the hardwired constants of 10_state.md R26, each under its
own name, and the functions built on them: the index of a level, the offset mask of a page size, the address mask of an
entry, the entry address. -/

namespace Sys2Proof.Machine

/-! ### The constants (R26) -/

/-- `TBM`, bits 51:12. -/
def tableBaseMask : Word := 0x000FFFFFFFFFF000
def cr3TableBaseMask : Word := tableBaseMask
def entrySize : Word := 8
def pml4Shift : Nat := 39
def pdpteShift : Nat := 30
def pdeShift : Nat := 21
def pteShift : Nat := 12
def indexMask : Word := 0x1FF
def offsetMask4K : Word := 0xFFF
def offsetMask2M : Word := 0x1FFFFF
def offsetMask1G : Word := 0x3FFFFFFF
/-- The place of the Present bit of a PML4E. -/
def pml4ePresent : Nat := 0
def pml4eAddrMask : Word := tableBaseMask
def pdptePresent : Nat := 0
/-- The place of the PS bit of a PDPTE. -/
def pdptePs : Nat := 7
def pdpteAddrMask : Word := tableBaseMask
/-- Bits 51:30. -/
def pdpte1gAddrMask : Word := 0x000FFFFFC0000000
def pdePresent : Nat := 0
def pdePs : Nat := 7
def pdeAddrMask : Word := tableBaseMask
/-- Bits 51:21. -/
def pde2mAddrMask : Word := 0x000FFFFFFFE00000
def ptePresent : Nat := 0
def pteAddrMask : Word := tableBaseMask

/-! ### The functions -/

/-- `SHIFT(L)` (R86). -/
def shift : Level → Nat
  | .pml4 => pml4Shift
  | .pdpte => pdpteShift
  | .pde => pdeShift
  | .pte => pteShift

/-- `IDX(L, va)` (R86). -/
def idx (L : Level) (va : Word) : Word := va >>> shift L &&& indexMask

/-- `OFF(size)` (R87). -/
def offsetMask : PageSize → Word
  | .size4K => offsetMask4K
  | .size2M => offsetMask2M
  | .size1G => offsetMask1G

/-- `SIZE(L)` (R87). `SIZE(0)` is undefined and never used: `none` (log entry 10). -/
def leafSize : Level → Option PageSize
  | .pml4 => none
  | .pdpte => some .size1G
  | .pde => some .size2M
  | .pte => some .size4K

/-- The kinds of entry that have an address mask of their own (R88). -/
inductive EntryKind where
  | tablePointer
  | leaf1G
  | leaf2M
  | leaf4K
  deriving DecidableEq, Repr

/-- `is_leaf` of an entry at a level (42_entry_decoder.md R98): never at PML4, always at PTE, bit 7 in between. -/
def isLeafAt (L : Level) (e : Word) : Bool :=
  match L with
  | .pml4 => false
  | .pdpte => e.getLsbD pdptePs
  | .pde => e.getLsbD pdePs
  | .pte => true

/-- The kind of the entry `e` at level `L` (R74, R75, R98). -/
def entryKind (L : Level) (e : Word) : EntryKind :=
  match L with
  | .pml4 => .tablePointer
  | .pdpte => if isLeafAt .pdpte e then .leaf1G else .tablePointer
  | .pde => if isLeafAt .pde e then .leaf2M else .tablePointer
  | .pte => .leaf4K

/-- The address mask of a kind of entry (R88, R99). -/
def kindMask : EntryKind → Word
  | .tablePointer => tableBaseMask
  | .leaf1G => pdpte1gAddrMask
  | .leaf2M => pde2mAddrMask
  | .leaf4K => pteAddrMask

/-- `AMASK(L, leaf)` (R88). `AMASK(0, true)` and `AMASK(3, false)` are never used: `none` (log entry 10). -/
def addrMask : Level → Bool → Option Word
  | .pml4, false => some pml4eAddrMask
  | .pml4, true => none
  | .pdpte, false => some pdpteAddrMask
  | .pdpte, true => some pdpte1gAddrMask
  | .pde, false => some pdeAddrMask
  | .pde, true => some pde2mAddrMask
  | .pte, false => none
  | .pte, true => some pteAddrMask

/-- `EA(base, index)` (R94): `(base & TBM) | (zext_64(index[8:0]) * 8)`. -/
def entryAddress (base index : Word) : Word :=
  (base &&& tableBaseMask) ||| ((index.setWidth 9).setWidth 64 * entrySize)

/-- The physical address of a leaf of the given mask and page size (43_walker.md R119). -/
def leafAddress (mask : Word) (size : PageSize) (entry va : Word) : Word :=
  (entry &&& mask) ||| (va &&& offsetMask size)

end Sys2Proof.Machine
end

