-- ==== Sys2Proof/Machine/Flags.lean ====
section
/-! DEFINITION. The entry decoder (42_entry_decoder.md): `DECODE(L, e)` with the present, is_leaf, base and flags of an
entry. The walker has no condition codes (10_state.md R23); the only flags it handles are these bits of entries, which
it passes through (R100). -/

namespace Sys2Proof.Machine

/-- The place of the Present bit at a level: bit 0 at every level (R72, R97). -/
def presentBit : Level → Nat
  | .pml4 => pml4ePresent
  | .pdpte => pdptePresent
  | .pde => pdePresent
  | .pte => ptePresent

/-- The record `DECODE` returns (R96). -/
structure DecodedEntry where
  present : Bool
  isLeaf : Bool
  base : Word
  flags : Word
  deriving DecidableEq, Repr

/-- The flags of an entry: every bit the address mask did not take (R100). -/
def flagsUnder (mask entry : Word) : Word := entry &&& ~~~mask

/-- `DECODE(L, e)` (R96): total, and nothing but bit 0 is validated (R102). It computes every field for a not-present
entry too (R97). -/
def decodeFields (L : Level) (e : Word) : DecodedEntry :=
  let mask := kindMask (entryKind L e)
  { present := e.getLsbD (presentBit L)
    isLeaf := isLeafAt L e
    base := e &&& mask
    flags := flagsUnder mask e }

end Sys2Proof.Machine
end

