-- ==== Sys2Proof/Machine/Ops.lean ====
section
/-! DEFINITION. The named operations over memory, registers and ports. The two at the centre are the walk fault
(`raiseFault`: 60_exceptions.md R131, R138, the walker's only exception) and the way back from a response
(`deliverResponse`: R139). -/

namespace Sys2Proof.Machine

variable {Cause : Type}

/-! ### Sparse data by address: lists with strictly rising keys -/

/-- The value listed at a key. -/
def lookupAt {α : Type} (a : Nat) : List (Nat × α) → Option α
  | [] => none
  | (k, v) :: rest => if k = a then some v else lookupAt a rest

/-- List a value at a key, in place of what was listed there. -/
def insertAt {α : Type} (a : Nat) (v : α) : List (Nat × α) → List (Nat × α)
  | [] => [(a, v)]
  | (k, u) :: rest =>
    if a < k then (a, v) :: (k, u) :: rest
    else if a = k then (a, v) :: rest
    else (k, u) :: insertAt a v rest

/-- List nothing at a key. -/
def removeAt {α : Type} (a : Nat) : List (Nat × α) → List (Nat × α)
  | [] => []
  | (k, u) :: rest => if k = a then rest else (k, u) :: removeAt a rest

/-- The keys rise strictly, from `lo` on. -/
def risingFrom {α : Type} (lo : Nat) : List (Nat × α) → Bool
  | [] => true
  | (k, _) :: rest => decide (lo ≤ k) && risingFrom (k + 1) rest

/-! ### The memory behind the read port (20_memory.md) -/

/-- The size of the physical read space: 52 address bits (10_state.md R29). -/
def spaceBytes : Nat := 2 ^ 52

/-- The canonical form: addresses strictly rising and inside the space, no entry equal to what an unlisted byte reads
as. -/
def Memory.wf (m : Memory) : Bool :=
  risingFrom 0 m && m.all (fun c => decide (c.1 < spaceBytes) && c.2 != Config.unlistedByte)

/-- The canonical form of the list of failing addresses. -/
def failingWf (f : List (Nat × Cause)) : Bool :=
  risingFrom 0 f && f.all (fun c => decide (c.1 < spaceBytes))

/-- The byte at an address. -/
def Memory.readByte (m : Memory) (a : Nat) : Byte := (lookupAt a m).getD Config.unlistedByte

/-- Change the byte at an address. -/
def Memory.writeByte (m : Memory) (a : Nat) (b : Byte) : Memory :=
  if b = Config.unlistedByte then removeAt a m else insertAt a b m

/-- The 64-bit value of the 8 bytes from an address on, in the platform's byte order (20_memory.md R44): little-endian
is `Σ byte[addr + k] << (8k)`. -/
def Memory.readWord (o : ByteOrder) (m : Memory) (a : Nat) : Word :=
  match o with
  | .little =>
    m.readByte (a + 7) ++ m.readByte (a + 6) ++ m.readByte (a + 5) ++ m.readByte (a + 4) ++
      m.readByte (a + 3) ++ m.readByte (a + 2) ++ m.readByte (a + 1) ++ m.readByte a
  | .big =>
    m.readByte a ++ m.readByte (a + 1) ++ m.readByte (a + 2) ++ m.readByte (a + 3) ++
      m.readByte (a + 4) ++ m.readByte (a + 5) ++ m.readByte (a + 6) ++ m.readByte (a + 7)

/-- What the image answers to a read at an address: the cause if the platform makes it fail, else the value. -/
def memoryAnswer (s : State Cause) (addr : Word) : ReadResp Cause :=
  match lookupAt addr.toNat s.failing with
  | some c => .err c
  | none => .ok (s.mem.readWord s.byteOrder addr.toNat)

/-! ### Response words (30_encoding.md R67) -/

/-- VALUE of a pure command other than DECODE_ENTRY: every other field is 0. -/
def valueResponse (v : Word) : Response Cause where
  status := .value
  size := .size4K
  level := .pml4
  reason := .notPresent
  present := false
  isLeaf := false
  value := v
  flags := 0
  cause := none

/-- VALUE of DECODE_ENTRY (42_entry_decoder.md R103). -/
def decodedResponse (L : Level) (d : DecodedEntry) : Response Cause where
  status := .value
  size := .size4K
  level := L
  reason := .notPresent
  present := d.present
  isLeaf := d.isLeaf
  value := d.base
  flags := d.flags
  cause := none

/-- RESOLVED, with the leaf's own flags (43_walker.md R120). -/
def resolvedResponse (pa : Word) (size : PageSize) (L : Level) (flags : Word) : Response Cause where
  status := .resolved
  size := size
  level := L
  reason := .notPresent
  present := false
  isLeaf := false
  value := pa
  flags := flags
  cause := none

/-- FAULT (60_exceptions.md R131): level, reason and, for ReadError, the cause; nothing else is recorded. -/
def faultResponse (L : Level) (reason : Reason) (cause : Option Cause) : Response Cause where
  status := .fault
  size := .size4K
  level := L
  reason := reason
  present := false
  isLeaf := false
  value := 0
  flags := 0
  cause := cause

/-- The code of a status (R67). -/
def Status.code : Status → BitVec 2
  | .value => 0
  | .resolved => 1
  | .fault => 2

/-- The code of a page size (R68). -/
def PageSize.code : PageSize → BitVec 2
  | .size4K => 0
  | .size2M => 1
  | .size1G => 2

/-- The code of a fault reason (R69). -/
def Reason.code : Reason → BitVec 1
  | .notPresent => 0
  | .readError => 1

/-- The bits `rsp[143:0]` of a response word (R67): `flags`, `value`, seven reserved zeros, `is_leaf`, `present`,
`reason`, `level`, `size`, `status`. The `cause` field stands beside them. -/
def Response.bits (r : Response Cause) : RspBits :=
  r.flags ++ r.value ++
    (0#7 ++ BitVec.ofBool r.isLeaf ++ BitVec.ofBool r.present ++ r.reason.code ++ r.level.code ++ r.size.code ++
      r.status.code)

/-! ### The ports -/

/-- What is offered on `rd_req`: `ea_q` in WALK, nothing in another state (20_memory.md R41). -/
def rdReqOffered (s : State Cause) : Option Word :=
  match s.st with
  | .walk => some s.eaQ
  | .idle | .rdWait | .resp => none

/-- What is offered on `rsp`: `rsp_q` in RESP, nothing in another state (10_state.md R14, R22). -/
def rspOffered (s : State Cause) : Option (Response Cause) :=
  match s.st with
  | .resp => s.rspQ
  | .idle | .walk | .rdWait => none

/-- The answer to the outstanding read, if there is one by now: the response offered on `rd_rsp`, else the image's
unless the responder is busy. -/
def pendingAnswer (s : State Cause) : Option (ReadResp Cause) :=
  match s.rdRsp with
  | some r => some r
  | none => if s.memBusy then none else some (memoryAnswer s s.eaQ)

/-- A command word is taken on `cmd` and latched (10_state.md R18). -/
def takeCommand (w : CmdWord) (rest : List CmdWord) (s : State Cause) : State Cause :=
  { s with cmd := rest, cmdQ := w }

/-- The address on `rd_req` is taken by the memory: WALK to RD_WAIT (43_walker.md R112). -/
def issueRead (s : State Cause) : State Cause :=
  { s with st := .rdWait, rdReqLog := s.rdReqLog ++ [s.eaQ] }

/-- The response on `rd_rsp` is taken. -/
def takeAnswer (s : State Cause) : State Cause := { s with rdRsp := none }

/-- The host takes `rsp_q`: RESP to IDLE (10_state.md R17). This is the way back from every response, a FAULT among
them (60_exceptions.md R139): nothing of the command is kept but what the registers hold (43_walker.md R126). -/
def deliverResponse (s : State Cause) : State Cause :=
  { s with st := .idle, rspQ := none, rspLog := s.rspLog ++ s.rspQ.toList }

/-! ### What the instructions do to the registers -/

/-- End the command: the response goes to `rsp_q` and the walker to RESP (R22). -/
def respond (r : Response Cause) (s : State Cause) : State Cause := { s with st := .resp, rspQ := some r }

/-- Raise a walk fault at a level (60_exceptions.md R131, R138): a FAULT response in `rsp_q`, and RESP. Nothing is
saved, no mode changes and no other register is written. -/
def raiseFault (L : Level) (reason : Reason) (cause : Option Cause) (s : State Cause) : State Cause :=
  respond (faultResponse L reason cause) s

/-- Go on to the table at `base` for level `L`: its entry address for `va_q`, and WALK (43_walker.md R111, R115). -/
def enterLevel (L : Level) (base : Word) (s : State Cause) : State Cause :=
  { s with st := .walk, baseQ := base, lvlQ := L, eaQ := entryAddress base (idx L s.vaQ) }

/-- Start a walk (43_walker.md R110). -/
def startWalk (root va : Word) (s : State Cause) : State Cause :=
  enterLevel .pml4 (root &&& cr3TableBaseMask) { s with vaQ := va }

/-- A command's effect happens where commands are taken, in IDLE; elsewhere the transfer does not happen
(10_state.md R14, 60_exceptions.md R147; log entry 12). -/
def onCommand (s : State Cause) (effect : State Cause → State Cause) : Host.Outcome (State Cause) Fault Refusal :=
  .next (if s.st = .idle then effect s else s)

/-- An entry's effect happens where entries of its level are taken, in RD_WAIT with `lvl_q` at that level; elsewhere the
transfer does not happen (10_state.md R14; log entry 12). -/
def onEntry (L : Level) (s : State Cause) (effect : State Cause → State Cause) :
    Host.Outcome (State Cause) Fault Refusal :=
  .next (if s.st = .rdWait ∧ s.lvlQ = L then effect s else s)

/-! ### The outside agents -/

/-- Reset (70_reset_and_hazards.md R151): IDLE, `rsp_q` empty, the command in flight dropped, the registers unspecified
(free values, log entry 7). The outstanding read is abandoned and its late answer kept away (R152), so `rd_rsp` is empty
too. DESIGN CHOICE (log entries 7 and 9): every instance counts its resets from 0 and draws from the same constants, so
two instances of a platform hold equal registers after their n-th asserted reset; the spec leaves each instance's free
(60_exceptions.md R144). -/
def resetWalker (s : State Cause) : State Cause :=
  { s with
    st := .idle
    cmdQ := Config.freeCmdQ s.freeIdx
    vaQ := Config.freeVaQ s.freeIdx
    baseQ := Config.freeBaseQ s.freeIdx
    lvlQ := Level.ofCode (Config.freeLvlQ s.freeIdx)
    eaQ := Config.freeEaQ s.freeIdx
    rspQ := none
    rdRsp := none
    freeIdx := s.freeIdx + 1 }

/-- May the responder answer now: a read is outstanding and not answered yet (20_memory.md R41). -/
def mayAnswer (s : State Cause) : Bool := decide (s.st = .rdWait) && s.rdRsp.isNone

/-- One move of an outside agent (60_exceptions.md R147). -/
def applyMove (m : EnvMove Cause) (s : State Cause) : Host.Outcome (State Cause) Fault Refusal :=
  match m with
  | .command w => .next { s with cmd := s.cmd ++ [w] }
  | .hostBusy b => .next { s with hostBusy := b }
  | .memBusy b => .next { s with memBusy := b }
  | .answer r => if mayAnswer s then .next { s with rdRsp := some r } else .refused .unsolicitedReadResponse
  | .writeMem a b => .next { s with mem := s.mem.writeByte a.toNat b }
  | .failAt a (some c) => .next { s with failing := insertAt a.toNat c s.failing }
  | .failAt a none => .next { s with failing := removeAt a.toNat s.failing }
  | .reset => .next (resetWalker s)

/-- A batch of moves, in order; it stops at the first that is refused. -/
def applyBatch : List (EnvMove Cause) → State Cause → Host.Outcome (State Cause) Fault Refusal
  | [], s => .next s
  | m :: rest, s =>
    match applyMove m s with
    | .next s' => applyBatch rest s'
    | .fault r => .fault r
    | .refused r => .refused r

/-- The outside agents make the batch of moves that comes before the walker's next step. -/
def envTick (s : State Cause) : Host.Outcome (State Cause) Fault Refusal :=
  match s.env with
  | [] => .next s
  | batch :: rest => applyBatch batch { s with env := rest }

end Sys2Proof.Machine
end

