-- ==== Sys2Proof/Machine/EntryDecoder.lean ====
section
/-! DEFINITION. The pure command DECODE_ENTRY (42_entry_decoder.md R103). -/

namespace Sys2Proof.Machine

variable {Cause : Type}

/-- DECODE_ENTRY: the decoded record as a VALUE response; a not-present entry is no fault (R103). -/
def execDecodeEntry (L : Level) (entry : Word) (s : State Cause) : Host.Outcome (State Cause) Fault Refusal :=
  onCommand s (respond (decodedResponse L (decodeFields L entry)))

end Sys2Proof.Machine
end

