-- ==== Sys2Proof/Machine/Layout.lean ====
section
/-! DEFINITION. The pure commands of the Bitfield Layout (41_bitfield_layout.md R89 to R94): taken in IDLE, answered with
a VALUE response, no read. -/

namespace Sys2Proof.Machine

variable {Cause : Type}

/-- GET_PML4_INDEX (R89). -/
def execGetPml4Index (va : Word) (s : State Cause) : Host.Outcome (State Cause) Fault Refusal :=
  onCommand s (respond (valueResponse (idx .pml4 va)))

/-- GET_PDPTE_INDEX (R90). -/
def execGetPdpteIndex (va : Word) (s : State Cause) : Host.Outcome (State Cause) Fault Refusal :=
  onCommand s (respond (valueResponse (idx .pdpte va)))

/-- GET_PDE_INDEX (R91). -/
def execGetPdeIndex (va : Word) (s : State Cause) : Host.Outcome (State Cause) Fault Refusal :=
  onCommand s (respond (valueResponse (idx .pde va)))

/-- GET_PTE_INDEX (R92). -/
def execGetPteIndex (va : Word) (s : State Cause) : Host.Outcome (State Cause) Fault Refusal :=
  onCommand s (respond (valueResponse (idx .pte va)))

/-- GET_TABLE_BASE (R93): the Present bit is not tested. -/
def execGetTableBase (entry : Word) (s : State Cause) : Host.Outcome (State Cause) Fault Refusal :=
  onCommand s (respond (valueResponse (entry &&& tableBaseMask)))

/-- COMPUTE_ENTRY_ADDRESS (R94). -/
def execComputeEntryAddress (base index : Word) (s : State Cause) : Host.Outcome (State Cause) Fault Refusal :=
  onCommand s (respond (valueResponse (entryAddress base index)))

end Sys2Proof.Machine
end

