-- ==== Sys2Proof/Machine/Translate.lean ====
section
/-! DEFINITION. The walk command TRANSLATE (43_walker.md R109, R110). It only starts the walk; the rest of the walk is
the entry classes of Machine/Walker.lean, one per entry read. -/

namespace Sys2Proof.Machine

variable {Cause : Type}

/-- TRANSLATE: IDLE to WALK with `va_q`, `base_q`, `lvl_q` and `ea_q` written (R110). -/
def execTranslate (root va : Word) (s : State Cause) : Host.Outcome (State Cause) Fault Refusal :=
  onCommand s (startWalk root va)

end Sys2Proof.Machine
end

