-- ==== Sys2Proof/Machine/Walker.lean ====
section
/-! DEFINITION. The entry classes (30_encoding.md R78, 42_entry_decoder.md R104 to R107): what the walker does with an
entry it has read, level by level (43_walker.md R114 to R120). -/

namespace Sys2Proof.Machine

variable {Cause : Type}

/-- A not-present entry at a level ends the walk (R114). -/
def notPresentAt (L : Level) (s : State Cause) : Host.Outcome (State Cause) Fault Refusal :=
  onEntry L s (raiseFault L .notPresent none)

/-- A present table pointer at level `L` leads to level `next` (R115 to R117). -/
def tablePointerAt (L next : Level) (mask entry : Word) (s : State Cause) :
    Host.Outcome (State Cause) Fault Refusal :=
  onEntry L s (enterLevel next (entry &&& mask))

/-- A present leaf at a level resolves the walk, with the leaf's own flags (R119, R120). -/
def leafAt (L : Level) (size : PageSize) (mask entry : Word) (s : State Cause) :
    Host.Outcome (State Cause) Fault Refusal :=
  onEntry L s (fun t => respond (resolvedResponse (leafAddress mask size entry t.vaQ) size L (flagsUnder mask entry)) t)

/-- PML4E.NP (R104, R114). -/
def execPml4eNp (_entry : Word) (s : State Cause) : Host.Outcome (State Cause) Fault Refusal := notPresentAt .pml4 s

/-- PML4E.TABLE: a table pointer whatever bit 7 holds (R115). -/
def execPml4eTable (entry : Word) (s : State Cause) : Host.Outcome (State Cause) Fault Refusal :=
  tablePointerAt .pml4 .pdpte pml4eAddrMask entry s

/-- PDPTE.NP (R105, R114). -/
def execPdpteNp (_entry : Word) (s : State Cause) : Host.Outcome (State Cause) Fault Refusal := notPresentAt .pdpte s

/-- PDPTE.TABLE (R116). -/
def execPdpteTable (entry : Word) (s : State Cause) : Host.Outcome (State Cause) Fault Refusal :=
  tablePointerAt .pdpte .pde pdpteAddrMask entry s

/-- PDPTE.1G (R116). -/
def execPdpte1g (entry : Word) (s : State Cause) : Host.Outcome (State Cause) Fault Refusal :=
  leafAt .pdpte .size1G pdpte1gAddrMask entry s

/-- PDE.NP (R106, R114). -/
def execPdeNp (_entry : Word) (s : State Cause) : Host.Outcome (State Cause) Fault Refusal := notPresentAt .pde s

/-- PDE.TABLE (R117). -/
def execPdeTable (entry : Word) (s : State Cause) : Host.Outcome (State Cause) Fault Refusal :=
  tablePointerAt .pde .pte pdeAddrMask entry s

/-- PDE.2M (R117). -/
def execPde2m (entry : Word) (s : State Cause) : Host.Outcome (State Cause) Fault Refusal :=
  leafAt .pde .size2M pde2mAddrMask entry s

/-- PTE.NP (R107, R114). -/
def execPteNp (_entry : Word) (s : State Cause) : Host.Outcome (State Cause) Fault Refusal := notPresentAt .pte s

/-- PTE.4K: a leaf whatever bit 7 holds (R118). -/
def execPte4k (entry : Word) (s : State Cause) : Host.Outcome (State Cause) Fault Refusal :=
  leafAt .pte .size4K pteAddrMask entry s

end Sys2Proof.Machine
end

