-- ==== Sys2Proof/Machine/Dispatch.lean ====
section
/-! DEFINITION. One arm per constructor of `Instr`, each a direct call of its meaning. -/

namespace Sys2Proof.Machine

def exec (i : Instr) (s : State) : Host.Outcome State Fault Refusal :=
  match i with
  | .translate root va => Sys2Proof.Machine.execTranslate root va s
  | .decodeEntry lvl entry => Sys2Proof.Machine.execDecodeEntry lvl entry s
  | .getPml4Index va => Sys2Proof.Machine.execGetPml4Index va s
  | .getPdpteIndex va => Sys2Proof.Machine.execGetPdpteIndex va s
  | .getPdeIndex va => Sys2Proof.Machine.execGetPdeIndex va s
  | .getPteIndex va => Sys2Proof.Machine.execGetPteIndex va s
  | .getTableBase entry => Sys2Proof.Machine.execGetTableBase entry s
  | .computeEntryAddress base index => Sys2Proof.Machine.execComputeEntryAddress base index s
  | .pml4eNp entry => Sys2Proof.Machine.execPml4eNp entry s
  | .pml4eTable entry => Sys2Proof.Machine.execPml4eTable entry s
  | .pdpteNp entry => Sys2Proof.Machine.execPdpteNp entry s
  | .pdpteTable entry => Sys2Proof.Machine.execPdpteTable entry s
  | .pdpte1g entry => Sys2Proof.Machine.execPdpte1g entry s
  | .pdeNp entry => Sys2Proof.Machine.execPdeNp entry s
  | .pdeTable entry => Sys2Proof.Machine.execPdeTable entry s
  | .pde2m entry => Sys2Proof.Machine.execPde2m entry s
  | .pteNp entry => Sys2Proof.Machine.execPteNp entry s
  | .pte4k entry => Sys2Proof.Machine.execPte4k entry s

end Sys2Proof.Machine
end

