-- ==== Sys2Proof/Machine/Fetch.lean ====
section
/-! DEFINITION. What the walker's next step is, and the step around an instruction. The walker fetches no instructions
from memory (20_memory.md R53): its instructions are the command words on `cmd`, taken in IDLE, and the entries on
`rd_rsp`, taken in RD_WAIT (10_state.md R14, R17). -/

namespace Sys2Proof.Machine

/-- The walker's next step: an instruction to run in the state after its word is taken, or a state to move to. -/
inductive Action (Cause : Type) where
  | run (p : PortWord) (s : State Cause)
  | move (s : State Cause)
  deriving DecidableEq, Repr

variable {Cause : Type}

/-- The transition of 10_state.md R17 that is due. With nothing offered or taken on the port of `st` the walker stays
where it is, for ever if need be (R17, R57, R147). -/
def nextAction (s : State Cause) : Action Cause :=
  match s.st with
  | .idle =>
    match s.cmd with
    | [] => .move s
    | w :: rest => .run (.cmd w) (takeCommand w rest s)
  | .walk => if s.memBusy then .move s else .move (issueRead s)
  | .rdWait =>
    match pendingAnswer s with
    | none => .move s
    | some (.ok e) => .run (.entry s.lvlQ e) (takeAnswer s)
    | some (.err c) => .move (raiseFault s.lvlQ .readError (some c) (takeAnswer s))
  | .resp => if s.hostBusy then .move s else .move (deliverResponse s)

/-- The walker's own step, where an instruction runs by `ex`. -/
def walkerStepBy (ex : Instr → State Cause → Host.Outcome (State Cause) Fault Refusal) (s : State Cause) :
    Host.Outcome (State Cause) Fault Refusal :=
  match nextAction s with
  | .run p t => ex (decode p) t
  | .move t => .next t

/-- One step of the machine, where an instruction runs by `ex`: the outside agents' batch of moves, then the walker's
own step (10_state.md R13, R17). -/
def stepBy (ex : Instr → State Cause → Host.Outcome (State Cause) Fault Refusal) (s : State Cause) :
    Host.Outcome (State Cause) Fault Refusal :=
  match envTick s with
  | .next t => walkerStepBy ex t
  | .fault r => .fault r
  | .refused r => .refused r

/-- A state whose next step takes the command word `w`: IDLE, with `w` offered first and no outside move before it. -/
def placeCommand (w : CmdWord) (s : State Cause) : State Cause :=
  { s with st := .idle, rspQ := none, rdRsp := none, cmd := w :: s.cmd, env := [] :: s.env }

/-- A state whose next step takes the entry `e` as the answer to a read at level `L`. -/
def placeEntry (L : Level) (e : Word) (s : State Cause) : State Cause :=
  { s with st := .rdWait, lvlQ := L, rspQ := none, rdRsp := some (.ok e), env := [] :: s.env }

end Sys2Proof.Machine
end

