-- ==== Sys2Proof/Machine/Step.lean ====
section
/-! DEFINITION. One step: the outside agents' batch of moves, then the walker's own step (10_state.md R13, R17). -/

namespace Sys2Proof.Machine

/-- The walker's own step. -/
def walkerStep (s : State) : Host.Outcome State Fault Refusal := walkerStepBy exec s

/-- One step of the machine. -/
def step (s : State) : Host.Outcome State Fault Refusal := stepBy exec s

/-- The state `s` with the word `w` of `nbits` bits placed where the next step takes its instruction: on `cmd` in IDLE,
or, for the 64 bits of an entry, on `rd_rsp` in RD_WAIT at level PML4 (log entry 13). A word of no port's width is not
placed. -/
def State.withFetchWord (s : State) (nbits w : Nat) : State :=
  match portWord .pml4 (tableWidth nbits) (w % 2 ^ nbits) with
  | .ok (.cmd c) => placeCommand c s
  | .ok (.entry L e) => placeEntry L e s
  | .error _ => s

end Sys2Proof.Machine
end

