-- ==== Sys2Proof/Machine/Generic.lean ====
section
/-! DEFINITION. The machine with the type of a read's cause as an argument (00_scope.md R6 `ReadCause`, decision D11: an
arbitrary type carried verbatim). `exec` and `step` are these two at `ReadCause`, as the statement
`MachineIsTheParametricOneAtReadCause` says. -/

namespace Sys2Proof.Machine

variable {Cause : Type}

/-- The meaning of an instruction, whatever the type of the causes. -/
def execOf (i : Instr) (s : State Cause) : Host.Outcome (State Cause) Fault Refusal :=
  match i with
  | .translate root va => execTranslate root va s
  | .decodeEntry lvl entry => execDecodeEntry lvl entry s
  | .getPml4Index va => execGetPml4Index va s
  | .getPdpteIndex va => execGetPdpteIndex va s
  | .getPdeIndex va => execGetPdeIndex va s
  | .getPteIndex va => execGetPteIndex va s
  | .getTableBase entry => execGetTableBase entry s
  | .computeEntryAddress base index => execComputeEntryAddress base index s
  | .pml4eNp entry => execPml4eNp entry s
  | .pml4eTable entry => execPml4eTable entry s
  | .pdpteNp entry => execPdpteNp entry s
  | .pdpteTable entry => execPdpteTable entry s
  | .pdpte1g entry => execPdpte1g entry s
  | .pdeNp entry => execPdeNp entry s
  | .pdeTable entry => execPdeTable entry s
  | .pde2m entry => execPde2m entry s
  | .pteNp entry => execPteNp entry s
  | .pte4k entry => execPte4k entry s

/-- One step of the machine, whatever the type of the causes. -/
def stepOf (s : State Cause) : Host.Outcome (State Cause) Fault Refusal := stepBy execOf s

end Sys2Proof.Machine
end

