-- ==== Sys2Proof/Machine/Platform.lean ====
section
/-! DEFINITION. A platform of several walker instances (00_scope.md R6 `N_WALKERS`, 60_exceptions.md R144): each has its
own state and its own ports, and they share nothing. Which instance moves is the platform's affair. -/

namespace Sys2Proof.Machine

/-- The states of the platform's instances, at least one (R6). The type of a read's cause is an argument here too. -/
structure Platform (Cause : Type := ReadCause) where
  first : State Cause
  others : List (State Cause)
  deriving DecidableEq, Repr

variable {Cause : Type}

/-- `N_WALKERS`. -/
def Platform.count (p : Platform Cause) : Nat := p.others.length + 1

/-- The state of the k-th instance. -/
def Platform.instanceAt (p : Platform Cause) : Nat → Option (State Cause)
  | 0 => some p.first
  | k + 1 => p.others[k]?

/-- The platform with the k-th instance's state replaced. -/
def Platform.setAt (p : Platform Cause) (s : State Cause) : Nat → Platform Cause
  | 0 => { p with first := s }
  | k + 1 => { p with others := p.others.set k s }

/-- The k-th instance takes one step; with no such instance nothing happens. -/
def Platform.stepAt (k : Nat) (p : Platform Cause) : Host.Outcome (Platform Cause) Fault Refusal :=
  match p.instanceAt k with
  | none => .next p
  | some s =>
    match stepOf s with
    | .next t => .next (p.setAt t k)
    | .fault r => .fault r
    | .refused r => .refused r

/-- All instances after reset: IDLE, independently (R144). DESIGN CHOICE (log entries 1 and 9): their unspecified registers
hold the same 0s, and `freeIdx` starts at 0 in each. -/
def Platform.reset (n : Nat) : Platform Cause := ⟨State.resetOf Cause, List.replicate n (State.resetOf Cause)⟩

end Sys2Proof.Machine
end

