-- ==== Sys2Proof/Safety.lean ====
section
/-! DEFINITION. The terms the statements use: runs, the invariant of the machine, the walk as the pseudocode of
43_walker.md R109 gives it, the views under which two runs are compared, and the change of the type of the causes. -/

namespace Sys2Proof.Machine

/-! ### Runs -/

/-- `k` steps, stopping at the first refusal. -/
def run : Nat → State → Host.Outcome State Fault Refusal
  | 0, s => .next s
  | k + 1, s =>
    match step s with
    | .next t => run k t
    | .fault r => .fault r
    | .refused r => .refused r

/-- An outcome seen through a view of the states; the view may change the type of the causes. -/
def seenBy {C D : Type} (view : State C → State D) :
    Host.Outcome (State C) Fault Refusal → Host.Outcome (State D) Fault Refusal
  | .next s => .next (view s)
  | .fault r => .fault r
  | .refused r => .refused r

/-! ### The invariant -/

/-- A walk is in flight. -/
def walking (s : State) : Prop := s.st = .walk ∨ s.st = .rdWait

/-- A response word has the form 30_encoding.md R67 gives its status: every field the status does not use is 0 or none,
DECODE_ENTRY's fields are those of some entry, a RESOLVED word's level and size agree (decision D23) and its address
has 52 bits, and a cause stands exactly beside ReadError. -/
def Response.wf (r : Response) : Bool :=
  match r.status with
  | .value =>
    r == valueResponse r.value || r == decodedResponse r.level (decodeFields r.level (r.value ||| r.flags))
  | .resolved =>
    r == resolvedResponse r.value r.size r.level r.flags && leafSize r.level == some r.size &&
      decide (r.value.toNat < spaceBytes)
  | .fault =>
    r == faultResponse r.level r.reason r.cause && r.cause.isSome == (r.reason == .readError)

/-- An address the walker may offer on `rd_req`: 8-byte aligned and inside the 52-bit space (20_memory.md R42). -/
def readableAddress (a : Word) : Prop := a.toNat % 8 = 0 ∧ a.toNat < spaceBytes

/-- The registers of a walk in flight: `base_q` has bits 63:52 and 11:0 clear (R19), `ea_q` is the entry address of
`va_q` at `lvl_q` (R21), and `cmd_q` holds the TRANSLATE whose virtual address is in `va_q` (R18) and whose root is the
base at PML4 (R111). -/
def RegistersOk (s : State) : Prop :=
  s.baseQ &&& tableBaseMask = s.baseQ ∧
  s.eaQ = entryAddress s.baseQ (idx s.lvlQ s.vaQ) ∧
  ∃ root, decode (.cmd s.cmdQ) = .translate root s.vaQ ∧ (s.lvlQ = .pml4 → s.baseQ = root &&& tableBaseMask)

/-- The invariant every step keeps. -/
structure WalkerInv (s : State) : Prop where
  registers : walking s → RegistersOk s
  responseHeld : s.st = .resp ↔ s.rspQ.isSome = true
  responseForm : ∀ r, s.rspQ = some r → r.wf = true
  answerOutstanding : s.rdRsp.isSome = true → s.st = .rdWait
  readLog : ∀ a ∈ s.rdReqLog, readableAddress a
  responseLog : ∀ r ∈ s.rspLog, r.wf = true
  memory : s.mem.wf = true
  failing : failingWf s.failing = true

/-! ### The walk of the pseudocode (R109) -/

/-- What a walk gives: the addresses it reads, in order, and its outcome. -/
structure WalkResult where
  reads : List Word
  response : Response
  deriving DecidableEq, Repr

/-- Read the entry at `addr` of level `L`; a read error and a not-present entry end the walk (R113, R114), any other
entry is handed on. -/
def visitEntry (rd : Level → Word → ReadResp) (L : Level) (addr : Word) (present : Word → WalkResult) : WalkResult :=
  match rd L addr with
  | .err c => ⟨[addr], faultResponse L .readError (some c)⟩
  | .ok e =>
    if e.getLsbD 0 then ⟨addr :: (present e).reads, (present e).response⟩
    else ⟨[addr], faultResponse L .notPresent none⟩

/-- The address of the entry with a 9-bit index in the table at `base`. -/
def slotAddress (base : Word) (index : BitVec 9) : Word := base + index.setWidth 64 * 8

/-- The walk from the PTE level on. -/
def walkPte (rd : Level → Word → ReadResp) (va base : Word) : WalkResult :=
  visitEntry rd .pte (slotAddress base (va.extractLsb' 12 9)) fun e =>
    ⟨[], resolvedResponse ((e &&& 0x000FFFFFFFFFF000) + (va.extractLsb' 0 12).setWidth 64) .size4K .pte
      (e &&& 0xFFF0000000000FFF)⟩

/-- The walk from the PDE level on. -/
def walkPde (rd : Level → Word → ReadResp) (va base : Word) : WalkResult :=
  visitEntry rd .pde (slotAddress base (va.extractLsb' 21 9)) fun e =>
    if e.getLsbD 7 then
      ⟨[], resolvedResponse ((e &&& 0x000FFFFFFFE00000) + (va.extractLsb' 0 21).setWidth 64) .size2M .pde
        (e &&& 0xFFF00000001FFFFF)⟩
    else walkPte rd va (e &&& 0x000FFFFFFFFFF000)

/-- The walk from the PDPTE level on. -/
def walkPdpte (rd : Level → Word → ReadResp) (va base : Word) : WalkResult :=
  visitEntry rd .pdpte (slotAddress base (va.extractLsb' 30 9)) fun e =>
    if e.getLsbD 7 then
      ⟨[], resolvedResponse ((e &&& 0x000FFFFFC0000000) + (va.extractLsb' 0 30).setWidth 64) .size1G .pdpte
        (e &&& 0xFFF000003FFFFFFF)⟩
    else walkPde rd va (e &&& 0x000FFFFFFFFFF000)

/-- `TRANSLATE(root, va)` where the read of `addr` at level `L` answers `rd L addr` (R109). -/
def translateSpec (rd : Level → Word → ReadResp) (root va : Word) : WalkResult :=
  visitEntry rd .pml4 (slotAddress (root &&& 0x000FFFFFFFFFF000) (va.extractLsb' 39 9)) fun e =>
    walkPdpte rd va (e &&& 0x000FFFFFFFFFF000)

/-- The outside moves of a run in which the reads of a walk are answered by `rd`: no move before the acceptance, none
before each issue, the answer before each consumption, none before the delivery. -/
def answeredScript (rd : Level → Word → ReadResp) (reads : List Word) : List (List EnvMove) :=
  [] :: (([Level.pml4, .pdpte, .pde, .pte].zip reads).flatMap fun p => [[], [.answer (rd p.1 p.2)]]) ++ [[]]

/-! ### Views for comparing runs -/

/-- The state with everything forgotten that the outside cannot see (10_state.md R30, R31): `cmd_q`, the model's free
value counter, and the walk registers when no walk is in flight. -/
def outsideView (s : State) : State :=
  match s.st with
  | .idle | .resp => { s with cmdQ := 0, vaQ := 0, baseQ := 0, lvlQ := .pml4, eaQ := 0, freeIdx := 0 }
  | .walk | .rdWait => { s with cmdQ := 0, freeIdx := 0 }

/-- The outside view of a state `t` that a run from `s` has reached, with the two port records cut to what the run has
appended to them: what went over `rd_req` and `rsp` before the run is forgotten too. -/
def sinceView (s t : State) : State :=
  outsideView
    { t with rdReqLog := t.rdReqLog.drop s.rdReqLog.length, rspLog := t.rspLog.drop s.rspLog.length }

/-- The bits of a command word that may matter: no reserved bit and no ignored field (30_encoding.md R64, R65), and of
a TRANSLATE only bits 51:12 of the root and bits 47:0 of the virtual address (43_walker.md R122, R123). -/
def significantBits (w : CmdWord) : CmdWord :=
  if cmdOp w = 0 then cmdWord 0 0 (cmdOpa w &&& 0x000FFFFFFFFFF000) (cmdOpb w &&& 0x0000FFFFFFFFFFFF)
  else clearIgnored w

/-- The outside view with the virtual address of the walk in flight cut to bits 47:0. -/
def lowAddressView (s : State) : State :=
  { outsideView s with vaQ := (outsideView s).vaQ &&& 0x0000FFFFFFFFFFFF }

/-! ### Causes of another type -/

/-- Map the cause of a response. -/
def Response.mapCause {C D : Type} (f : C → D) (r : Response C) : Response D := { r with cause := r.cause.map f }

/-- Map the cause of an answer. -/
def ReadResp.mapCause {C D : Type} (f : C → D) : ReadResp C → ReadResp D
  | .ok v => .ok v
  | .err c => .err (f c)

/-- Map the causes in an outside move. -/
def EnvMove.mapCause {C D : Type} (f : C → D) : EnvMove C → EnvMove D
  | .command w => .command w
  | .hostBusy b => .hostBusy b
  | .memBusy b => .memBusy b
  | .answer r => .answer (r.mapCause f)
  | .writeMem a b => .writeMem a b
  | .failAt a c => .failAt a (c.map f)
  | .reset => .reset

/-- Map every cause in a state. -/
def State.mapCause {C D : Type} (f : C → D) (s : State C) : State D :=
  { s with
    rspQ := s.rspQ.map (Response.mapCause f)
    rdRsp := s.rdRsp.map (ReadResp.mapCause f)
    rspLog := s.rspLog.map (Response.mapCause f)
    env := s.env.map (List.map (EnvMove.mapCause f))
    failing := s.failing.map fun p => (p.1, f p.2) }

end Sys2Proof.Machine
end

