-- ==== Sys2Proof/Certificates/Slice0/Obligations.lean ====
section
/-! DEFINITION. The statements about the walker, one `def Obligations.<Name> : Prop` each. Every docstring names the rule
of spec/ it formalises. A statement that names a next state with `{ s with … }` says the frame with it: every field not
named is as before, memory and ports among them. -/

open Sys2Proof Sys2Proof.Machine

/-! ### Reset and the invariant -/

/-- After reset: IDLE, no response held or offered, no read requested, nothing outstanding (10_state.md R32). The values
of the registers R32 leaves unspecified are not stated. -/
def Obligations.ResetStateIsIdleAndOffersNothing : Prop :=
  State.reset.st = .idle ∧ State.reset.rspQ = none ∧ rspOffered State.reset = none ∧
    rdReqOffered State.reset = none ∧ State.reset.rdRsp = none ∧ State.reset.byteOrder = .little

/-- The state after reset meets the invariant. -/
def Obligations.ResetStateMeetsTheInvariant : Prop := WalkerInv State.reset

/-- Every step keeps the invariant, whatever the outside agents do before it: the shape of `base_q` and `ea_q` in a walk
(R19, R21), the latched command (R18), the form of every response word (R67), the alignment of every address that went
out on `rd_req` (R42), one outstanding read at most (R41), and the canonical form of the memory. -/
def Obligations.EveryStepKeepsTheInvariant : Prop :=
  ∀ s t, WalkerInv s → step s = .next t → WalkerInv t

/-- R151: reset may be asserted in any state; it gives IDLE with no response held or offered, drops the command in
flight (no response of it goes out), changes nothing of the platform, and the next word on `cmd` is taken. What the
registers hold is not stated: it holds for every value of them. -/
def Obligations.AssertedResetDropsTheCommandInFlight : Prop :=
  ∀ s, ∃ t, applyMove .reset s = .next t ∧ t.st = .idle ∧ t.rspQ = none ∧ rspOffered t = none ∧
    rdReqOffered t = none ∧ t.rdRsp = none ∧ t.rspLog = s.rspLog ∧ t.rdReqLog = s.rdReqLog ∧ t.cmd = s.cmd ∧
    t.env = s.env ∧ t.hostBusy = s.hostBusy ∧ t.memBusy = s.memBusy ∧ t.mem = s.mem ∧ t.failing = s.failing ∧
    t.byteOrder = s.byteOrder ∧
    ∀ w rest, s.env = [] → s.cmd = w :: rest →
      step t = exec (decode (.cmd w)) { t with cmd := rest, cmdQ := w }

/-! ### Encodings -/

/-- Decoding the encoding of a well-formed instruction gives it back, every operand at every value. -/
def Obligations.DecodingAnEncodedInstructionGivesItBack : Prop :=
  ∀ i : Instr, i.wf = true → decode (encode i) = i

/-- Every word of either port decodes to a well-formed instruction; encoding that gives the word back with its reserved
bits and ignored fields 0, and the word so cleared decodes to the same instruction: the walker decodes those bits as if
they were 0. -/
def Obligations.EveryPortWordDecodesAsIfIgnoredBitsWereZero : Prop :=
  (∀ p, (decode p).wf = true) ∧
  (∀ w, encode (decode (.cmd w)) = .cmd (clearIgnored w)) ∧
  (∀ w, decode (.cmd (clearIgnored w)) = decode (.cmd w)) ∧
  (∀ L e, encode (decode (.entry L e)) = .entry L e)

/-- The rows of the opcode table are disjoint and cover every word: a port word meets the row of the instruction it
decodes to, and no other row. -/
def Obligations.EveryPortWordMeetsExactlyOneRow : Prop :=
  ∀ p, (decode p).row.accepts p = true ∧ ∀ i : Instr, i.row.accepts p = true → i.row = (decode p).row

/-- R84, the worked encodings: `{opb, opa, hdr}` of three commands. -/
def Obligations.WorkedCommandWordsEncodeAndDecode : Prop :=
  encode (.translate 0x100000 0x8080604567) =
    .cmd ((0x0000008080604567#64 ++ 0x0000000000100000#64) ++ 0x00#8) ∧
  encode (.decodeEntry .pde 0x200083) = .cmd ((0#64 ++ 0x0000000000200083#64) ++ 0x11#8) ∧
  encode (.computeEntryAddress 0x5000 511) = .cmd ((0x1FF#64 ++ 0x5000#64) ++ 0x07#8) ∧
  decode (.cmd ((0x0000008080604567#64 ++ 0x0000000000100000#64) ++ 0x00#8)) = .translate 0x100000 0x8080604567 ∧
  decode (.cmd ((0#64 ++ 0x0000000000200083#64) ++ 0x11#8)) = .decodeEntry .pde 0x200083 ∧
  decode (.cmd ((0x1FF#64 ++ 0x5000#64) ++ 0x07#8)) = .computeEntryAddress 0x5000 511

/-- R63: the `op` field `cmd[2:0]` selects one of eight commands, every value assigned, with the operands of the table:
`opa` is `cmd[71:8]`, `opb` is `cmd[135:72]`, the level of DECODE_ENTRY is `cmd[4:3]`. -/
def Obligations.CommandWordsDecodeByTheirOpField : Prop :=
  ∀ w : CmdWord,
    (w.extractLsb' 0 3 = 0#3 → decode (.cmd w) = .translate (w.extractLsb' 8 64) (w.extractLsb' 72 64)) ∧
    (∀ L : Level, w.extractLsb' 0 3 = 1#3 → w.extractLsb' 3 2 = L.code →
      decode (.cmd w) = .decodeEntry L (w.extractLsb' 8 64)) ∧
    (w.extractLsb' 0 3 = 2#3 → decode (.cmd w) = .getPml4Index (w.extractLsb' 8 64)) ∧
    (w.extractLsb' 0 3 = 3#3 → decode (.cmd w) = .getPdpteIndex (w.extractLsb' 8 64)) ∧
    (w.extractLsb' 0 3 = 4#3 → decode (.cmd w) = .getPdeIndex (w.extractLsb' 8 64)) ∧
    (w.extractLsb' 0 3 = 5#3 → decode (.cmd w) = .getPteIndex (w.extractLsb' 8 64)) ∧
    (w.extractLsb' 0 3 = 6#3 → decode (.cmd w) = .getTableBase (w.extractLsb' 8 64)) ∧
    (w.extractLsb' 0 3 = 7#3 →
      decode (.cmd w) = .computeEntryAddress (w.extractLsb' 8 64) (w.extractLsb' 72 64))

/-- The ten entry classes by level, mask and match (R78): which instruction an entry read at a level is. -/
def Obligations.EntryClassesFollowMaskAndMatch : Prop :=
  ∀ e : Word,
    (e &&& 0x1 = 0x0 → decode (.entry .pml4 e) = .pml4eNp e ∧ decode (.entry .pdpte e) = .pdpteNp e ∧
      decode (.entry .pde e) = .pdeNp e ∧ decode (.entry .pte e) = .pteNp e) ∧
    (e &&& 0x1 = 0x1 → decode (.entry .pml4 e) = .pml4eTable e ∧ decode (.entry .pte e) = .pte4k e) ∧
    (e &&& 0x81 = 0x01 → decode (.entry .pdpte e) = .pdpteTable e ∧ decode (.entry .pde e) = .pdeTable e) ∧
    (e &&& 0x81 = 0x81 → decode (.entry .pdpte e) = .pdpte1g e ∧ decode (.entry .pde e) = .pde2m e)

/-- The fields of the response word at their places (R67), the seven reserved bits 0, with the codes of R66, R68, R69. -/
def Obligations.ResponseWordHasItsFieldsInPlace : Prop :=
  ∀ r : Response,
    r.bits.extractLsb' 0 2 = (match r.status with | .value => 0#2 | .resolved => 1#2 | .fault => 2#2) ∧
    r.bits.extractLsb' 2 2 = (match r.size with | .size4K => 0#2 | .size2M => 1#2 | .size1G => 2#2) ∧
    r.bits.extractLsb' 4 2 = (match r.level with | .pml4 => 0#2 | .pdpte => 1#2 | .pde => 2#2 | .pte => 3#2) ∧
    r.bits.getLsbD 6 = (match r.reason with | .notPresent => false | .readError => true) ∧
    r.bits.getLsbD 7 = r.present ∧
    r.bits.getLsbD 8 = r.isLeaf ∧
    r.bits.extractLsb' 9 7 = 0 ∧
    r.bits.extractLsb' 16 64 = r.value ∧
    r.bits.extractLsb' 80 64 = r.flags

/-- A response is determined by its 144 bits and its cause: the response word loses nothing. -/
def Obligations.ResponseWordLosesNothing : Prop :=
  ∀ r r' : Response, r.bits = r'.bits → r.cause = r'.cause → r = r'

/-! ### The layout and the decoder -/

/-- R95: the four laws of the layout functions. -/
def Obligations.LayoutLawsHold : Prop :=
  (∀ va : Word,
    (idx .pml4 va <<< 39) ||| (idx .pdpte va <<< 30) ||| (idx .pde va <<< 21) ||| (idx .pte va <<< 12) |||
      (va &&& 0xFFF) = va &&& 0x0000FFFFFFFFFFFF) ∧
  (∀ base index : Word,
    (base &&& tableBaseMask) &&& ((index.setWidth 9).setWidth 64 * 8) = 0 ∧
    (entryAddress base index).toNat = (base &&& tableBaseMask).toNat + (index.toNat % 512) * 8) ∧
  (∀ L size mask, leafSize L = some size → addrMask L true = some mask →
    mask &&& offsetMask size = 0 ∧ mask ||| offsetMask size = 0x000FFFFFFFFFFFFF ∧
    ∀ e va : Word,
      (leafAddress mask size e va).toNat = (e &&& mask).toNat + (va &&& offsetMask size).toNat) ∧
  (∀ base index : Word, entryAddress base index &&& 7 = 0)

/-- R101: the decoder loses no information. -/
def Obligations.DecodedBaseAndFlagsSplitTheEntry : Prop :=
  ∀ (L : Level) (e : Word),
    (decodeFields L e).base ||| (decodeFields L e).flags = e ∧
    (decodeFields L e).base &&& (decodeFields L e).flags = 0

/-- R27: every physical address the walker forms has bits 63:52 clear: entry addresses, table and frame bases, resolved
addresses, and so the values of GET_TABLE_BASE and COMPUTE_ENTRY_ADDRESS. -/
def Obligations.EveryAddressFormedHasFiftyTwoBits : Prop :=
  (∀ base index, (entryAddress base index).toNat < 2 ^ 52) ∧
  (∀ e : Word, (e &&& tableBaseMask).toNat < 2 ^ 52) ∧
  (∀ L e, (decodeFields L e).base.toNat < 2 ^ 52) ∧
  (∀ L size mask e va, leafSize L = some size → addrMask L true = some mask →
    (leafAddress mask size e va).toNat < 2 ^ 52) ∧
  (∀ e s t, s.st = .idle → exec (.getTableBase e) s = .next t → ∃ r, t.rspQ = some r ∧ r.value.toNat < 2 ^ 52) ∧
  (∀ b i s t, s.st = .idle → exec (.computeEntryAddress b i) s = .next t →
    ∃ r, t.rspQ = some r ∧ r.value.toNat < 2 ^ 52)

/-! ### The pure commands -/

/-- R89 to R92: the four index commands, ops 2 to 5. Each answers VALUE with its 9-bit field of `va`, zero-extended, so
at most 511; nothing but that field matters; no other register and no memory is touched. -/
def Obligations.IndexCommandsAnswerTheirField : Prop :=
  (∀ va s, s.st = .idle →
    exec (.getPml4Index va) s =
      .next { s with st := .resp, rspQ := some (valueResponse ((va.extractLsb' 39 9).setWidth 64)) } ∧
    exec (.getPdpteIndex va) s =
      .next { s with st := .resp, rspQ := some (valueResponse ((va.extractLsb' 30 9).setWidth 64)) } ∧
    exec (.getPdeIndex va) s =
      .next { s with st := .resp, rspQ := some (valueResponse ((va.extractLsb' 21 9).setWidth 64)) } ∧
    exec (.getPteIndex va) s =
      .next { s with st := .resp, rspQ := some (valueResponse ((va.extractLsb' 12 9).setWidth 64)) }) ∧
  (∀ (va : Word) (lo : Nat), ((va.extractLsb' lo 9).setWidth 64).toNat ≤ 511) ∧
  (∀ w : CmdWord,
    (w.extractLsb' 0 3 = 2#3 → decode (.cmd w) = .getPml4Index (w.extractLsb' 8 64)) ∧
    (w.extractLsb' 0 3 = 3#3 → decode (.cmd w) = .getPdpteIndex (w.extractLsb' 8 64)) ∧
    (w.extractLsb' 0 3 = 4#3 → decode (.cmd w) = .getPdeIndex (w.extractLsb' 8 64)) ∧
    (w.extractLsb' 0 3 = 5#3 → decode (.cmd w) = .getPteIndex (w.extractLsb' 8 64))) ∧
  (∀ s, s.st = .idle →
    exec (.getPml4Index 0xFFFF800040001234) s =
      .next { s with st := .resp, rspQ := some (valueResponse 0x100) } ∧
    exec (.getPdpteIndex 0xFFFF800040001234) s =
      .next { s with st := .resp, rspQ := some (valueResponse 0x1) } ∧
    exec (.getPdeIndex 0x0000008080604567) s =
      .next { s with st := .resp, rspQ := some (valueResponse 0x3) } ∧
    exec (.getPteIndex 0x0000008080604567) s =
      .next { s with st := .resp, rspQ := some (valueResponse 0x4) })

/-- R93: GET_TABLE_BASE, op 6: VALUE with bits 51:12 of the entry and every other bit 0, whatever the Present bit and
the PS bit are. -/
def Obligations.GetTableBaseAnswersBits51To12 : Prop :=
  (∀ entry s, s.st = .idle →
    exec (.getTableBase entry) s =
      .next { s with st := .resp, rspQ := some (valueResponse (entry &&& 0x000FFFFFFFFFF000)) }) ∧
  (∀ (entry : Word) (i : Nat), (entry &&& 0x000FFFFFFFFFF000).getLsbD i =
    (decide (12 ≤ i ∧ i ≤ 51) && entry.getLsbD i)) ∧
  (∀ w : CmdWord, w.extractLsb' 0 3 = 6#3 → decode (.cmd w) = .getTableBase (w.extractLsb' 8 64)) ∧
  (∀ s, s.st = .idle →
    exec (.getTableBase 0x8000000000200063) s =
      .next { s with st := .resp, rspQ := some (valueResponse 0x200000) })

/-- R94: COMPUTE_ENTRY_ADDRESS, op 7: the base cut to bits 51:12 plus index[8:0] * 8; always 8-byte aligned and within
the 4 KiB table; for an index below 512 and a base with nothing but bits 51:12 it is base OR index * 8. -/
def Obligations.ComputeEntryAddressAnswersTheScaledSlot : Prop :=
  (∀ base index s, s.st = .idle → ∃ v : Word,
    exec (.computeEntryAddress base index) s =
      .next { s with st := .resp, rspQ := some (valueResponse v) } ∧
    v = (base &&& 0x000FFFFFFFFFF000) ||| ((index &&& 0x1FF) * 8) ∧
    v.toNat = (base &&& 0x000FFFFFFFFFF000).toNat + (index.toNat % 512) * 8 ∧
    v.toNat % 8 = 0 ∧ v.toNat - (base &&& 0x000FFFFFFFFFF000).toNat ≤ 4088 ∧
    (index.toNat < 512 → base &&& 0x000FFFFFFFFFF000 = base → v = base ||| (index * 8))) ∧
  (∀ w : CmdWord, w.extractLsb' 0 3 = 7#3 →
    decode (.cmd w) = .computeEntryAddress (w.extractLsb' 8 64) (w.extractLsb' 72 64)) ∧
  (∀ s, s.st = .idle →
    exec (.computeEntryAddress 0x5000 511) s =
      .next { s with st := .resp, rspQ := some (valueResponse 0x5FF8) })

/-- R103: DECODE_ENTRY, op 1, at each level: present is bit 0; is_leaf is never, bit 7, bit 7, always (R98); base and
flags split the entry at the mask of its level and kind (R99, R100); the response's level is the operand. A not-present
entry is no fault. -/
def Obligations.DecodeEntryAnswersTheDecodedFields : Prop :=
  (∀ e s, s.st = .idle →
    exec (.decodeEntry .pml4 e) s = .next { s with
      st := .resp
      rspQ := some ⟨.value, .size4K, .pml4, .notPresent, e.getLsbD 0, false,
        e &&& 0x000FFFFFFFFFF000, e &&& 0xFFF0000000000FFF, none⟩ } ∧
    exec (.decodeEntry .pdpte e) s = .next { s with
      st := .resp
      rspQ := some ⟨.value, .size4K, .pdpte, .notPresent, e.getLsbD 0, e.getLsbD 7,
        (if e.getLsbD 7 then e &&& 0x000FFFFFC0000000 else e &&& 0x000FFFFFFFFFF000),
        (if e.getLsbD 7 then e &&& 0xFFF000003FFFFFFF else e &&& 0xFFF0000000000FFF), none⟩ } ∧
    exec (.decodeEntry .pde e) s = .next { s with
      st := .resp
      rspQ := some ⟨.value, .size4K, .pde, .notPresent, e.getLsbD 0, e.getLsbD 7,
        (if e.getLsbD 7 then e &&& 0x000FFFFFFFE00000 else e &&& 0x000FFFFFFFFFF000),
        (if e.getLsbD 7 then e &&& 0xFFF00000001FFFFF else e &&& 0xFFF0000000000FFF), none⟩ } ∧
    exec (.decodeEntry .pte e) s = .next { s with
      st := .resp
      rspQ := some ⟨.value, .size4K, .pte, .notPresent, e.getLsbD 0, true,
        e &&& 0x000FFFFFFFFFF000, e &&& 0xFFF0000000000FFF, none⟩ }) ∧
  (∀ w : CmdWord, w.extractLsb' 0 3 = 1#3 → ∃ L,
    decode (.cmd w) = .decodeEntry L (w.extractLsb' 8 64) ∧ L.code = w.extractLsb' 3 2) ∧
  (∀ s, s.st = .idle →
    exec (.decodeEntry .pde 0x200083) s = .next { s with
      st := .resp
      rspQ := some ⟨.value, .size4K, .pde, .notPresent, true, true, 0x200000, 0x83, none⟩ })

/-- R135: every command word but a TRANSLATE is answered with one VALUE response, no cause, no read, no fault; once the
host takes it the walker is IDLE again: two steps. -/
def Obligations.PureCommandsAnswerWithoutReading : Prop :=
  ∀ w rest s, w.extractLsb' 0 3 ≠ 0#3 → s.env = [] → s.st = .idle → s.cmd = w :: rest → s.hostBusy = false →
    ∃ r : Response, r.status = .value ∧ r.cause = none ∧
      step s = .next { s with st := .resp, rspQ := some r, cmd := rest, cmdQ := w } ∧
      run 2 s = .next { s with st := .idle, rspQ := none, cmd := rest, cmdQ := w, rspLog := s.rspLog ++ [r] }

/-! ### The walk, instruction by instruction -/

/-- R110: TRANSLATE taken in IDLE writes `va_q`, `base_q`, `lvl_q`, `ea_q` and goes to WALK; nothing else changes. -/
def Obligations.TranslateStartsTheWalk : Prop :=
  ∀ root va s, s.st = .idle →
    exec (.translate root va) s = .next { s with
      st := .walk
      vaQ := va
      baseQ := root &&& 0x000FFFFFFFFFF000
      lvlQ := .pml4
      eaQ := (root &&& 0x000FFFFFFFFFF000) ||| ((va.extractLsb' 39 9).setWidth 64 * 8) }

/-- R112: in WALK, and only there, `ea_q` is offered on `rd_req`; when the memory takes it the walker is in RD_WAIT, and
that one transfer is all that happened. -/
def Obligations.WalkOffersItsEntryAddressOnce : Prop :=
  (∀ (s : State) a, rdReqOffered s = some a ↔ s.st = .walk ∧ a = s.eaQ) ∧
  (∀ s, s.env = [] → s.st = .walk → s.memBusy = false →
    step s = .next { s with st := .rdWait, rdReqLog := s.rdReqLog ++ [s.eaQ] })

/-- R113: a read error ends the walk at once, with the cause verbatim, and no further read goes out; after the host has
taken the FAULT the walker is IDLE. -/
def Obligations.ReadErrorEndsTheWalkAtOnce : Prop :=
  ∀ s c, s.env = [] → s.st = .rdWait → s.rdRsp = some (.err c) →
    step s = .next { s with
      st := .resp
      rdRsp := none
      rspQ := some ⟨.fault, .size4K, s.lvlQ, .readError, false, false, 0, 0, some c⟩ } ∧
    (s.hostBusy = false → run 2 s = .next { s with
      st := .idle
      rdRsp := none
      rspQ := none
      rspLog := s.rspLog ++ [⟨.fault, .size4K, s.lvlQ, .readError, false, false, 0, 0, some c⟩] })

/-- R114: an entry whose bit 0 is clear ends the walk at its level with FAULT NotPresent, whatever its other bits are;
no further read goes out. -/
def Obligations.NotPresentEntryEndsTheWalk : Prop :=
  (∀ L e s, e.getLsbD 0 = false → s.st = .rdWait → s.lvlQ = L →
    exec (decode (.entry L e)) s = .next { s with
      st := .resp
      rspQ := some ⟨.fault, .size4K, L, .notPresent, false, false, 0, 0, none⟩ }) ∧
  (∀ e s, s.st = .rdWait →
    (s.lvlQ = .pml4 → exec (.pml4eNp e) s = .next { s with
      st := .resp
      rspQ := some ⟨.fault, .size4K, .pml4, .notPresent, false, false, 0, 0, none⟩ }) ∧
    (s.lvlQ = .pdpte → exec (.pdpteNp e) s = .next { s with
      st := .resp
      rspQ := some ⟨.fault, .size4K, .pdpte, .notPresent, false, false, 0, 0, none⟩ }) ∧
    (s.lvlQ = .pde → exec (.pdeNp e) s = .next { s with
      st := .resp
      rspQ := some ⟨.fault, .size4K, .pde, .notPresent, false, false, 0, 0, none⟩ }) ∧
    (s.lvlQ = .pte → exec (.pteNp e) s = .next { s with
      st := .resp
      rspQ := some ⟨.fault, .size4K, .pte, .notPresent, false, false, 0, 0, none⟩ }))

/-- A present table pointer sends the walk to the next level (R115, R116, R117): `base_q` is bits 51:12 of the entry,
`lvl_q` the next level, `ea_q` that table's entry for `va_q`; at PML4 whatever bit 7 holds. -/
def Obligations.TablePointerSendsTheWalkOn : Prop :=
  (∀ e, e.getLsbD 0 = true → decode (.entry .pml4 e) = .pml4eTable e) ∧
  (∀ e, e.getLsbD 0 = true → e.getLsbD 7 = false →
    decode (.entry .pdpte e) = .pdpteTable e ∧ decode (.entry .pde e) = .pdeTable e) ∧
  (∀ e s, s.st = .rdWait →
    (s.lvlQ = .pml4 → exec (.pml4eTable e) s = .next { s with
      st := .walk
      baseQ := e &&& 0x000FFFFFFFFFF000
      lvlQ := .pdpte
      eaQ := (e &&& 0x000FFFFFFFFFF000) ||| ((s.vaQ.extractLsb' 30 9).setWidth 64 * 8) }) ∧
    (s.lvlQ = .pdpte → exec (.pdpteTable e) s = .next { s with
      st := .walk
      baseQ := e &&& 0x000FFFFFFFFFF000
      lvlQ := .pde
      eaQ := (e &&& 0x000FFFFFFFFFF000) ||| ((s.vaQ.extractLsb' 21 9).setWidth 64 * 8) }) ∧
    (s.lvlQ = .pde → exec (.pdeTable e) s = .next { s with
      st := .walk
      baseQ := e &&& 0x000FFFFFFFFFF000
      lvlQ := .pte
      eaQ := (e &&& 0x000FFFFFFFFFF000) ||| ((s.vaQ.extractLsb' 12 9).setWidth 64 * 8) }))

/-- A present leaf resolves the walk (R116 to R120): the frame base of its mask OR the offset of its page size, the
size, the level, and the leaf's own bits outside its mask as the flags; at PTE whatever bit 7 holds. -/
def Obligations.LeafEntryResolvesTheWalk : Prop :=
  (∀ e, e.getLsbD 0 = true → e.getLsbD 7 = true →
    decode (.entry .pdpte e) = .pdpte1g e ∧ decode (.entry .pde e) = .pde2m e) ∧
  (∀ e, e.getLsbD 0 = true → decode (.entry .pte e) = .pte4k e) ∧
  (∀ e s, s.st = .rdWait →
    (s.lvlQ = .pdpte → exec (.pdpte1g e) s = .next { s with
      st := .resp
      rspQ := some ⟨.resolved, .size1G, .pdpte, .notPresent, false, false,
        (e &&& 0x000FFFFFC0000000) ||| (s.vaQ &&& 0x3FFFFFFF), e &&& 0xFFF000003FFFFFFF, none⟩ }) ∧
    (s.lvlQ = .pde → exec (.pde2m e) s = .next { s with
      st := .resp
      rspQ := some ⟨.resolved, .size2M, .pde, .notPresent, false, false,
        (e &&& 0x000FFFFFFFE00000) ||| (s.vaQ &&& 0x1FFFFF), e &&& 0xFFF00000001FFFFF, none⟩ }) ∧
    (s.lvlQ = .pte → exec (.pte4k e) s = .next { s with
      st := .resp
      rspQ := some ⟨.resolved, .size4K, .pte, .notPresent, false, false,
        (e &&& 0x000FFFFFFFFFF000) ||| (s.vaQ &&& 0xFFF), e &&& 0xFFF0000000000FFF, none⟩ }))

/-- R119: the resolved address of every leaf is its masked entry OR the masked virtual address; bits 63:52 are 0 and the
OR is a sum. -/
def Obligations.ResolvedAddressIsFramePlusOffset : Prop :=
  ∀ L size mask e s, leafSize L = some size → addrMask L true = some mask →
    s.st = .rdWait → s.lvlQ = L → e.getLsbD 0 = true → (L ≠ .pte → e.getLsbD 7 = true) →
    ∃ r, exec (decode (.entry L e)) s = .next { s with st := .resp, rspQ := some r } ∧
      r.status = .resolved ∧ r.size = size ∧
      r.value = (e &&& mask) ||| (s.vaQ &&& offsetMask size) ∧
      r.value.toNat = (e &&& mask).toNat + (s.vaQ &&& offsetMask size).toNat ∧
      r.value.toNat < 2 ^ 52

/-- The response in RESP, and only there, is offered to the host; its taking ends the command: IDLE, `rsp_q` empty, the
walk registers as they were (R126, R139). -/
def Obligations.HostTakesTheResponseAndTheWalkerIsIdle : Prop :=
  (∀ (s : State) r, rspOffered s = some r ↔ s.st = .resp ∧ s.rspQ = some r) ∧
  (∀ s r, s.env = [] → s.st = .resp → s.rspQ = some r → s.hostBusy = false →
    step s = .next { s with st := .idle, rspQ := none, rspLog := s.rspLog ++ [r] })

/-! ### The step -/

/-- A step in IDLE runs the instruction of the command word offered first, after taking it off `cmd` into `cmd_q`. -/
def Obligations.StepRunsTheCommandTaken : Prop :=
  ∀ s w rest, s.env = [] → s.st = .idle → s.cmd = w :: rest →
    step s = exec (decode (.cmd w)) { s with cmd := rest, cmdQ := w }

/-- A step in RD_WAIT with an entry offered on `rd_rsp` runs the class of that entry at `lvl_q`, after taking it. -/
def Obligations.StepRunsTheEntryTaken : Prop :=
  ∀ s e, s.env = [] → s.st = .rdWait → s.rdRsp = some (.ok e) →
    step s = exec (decode (.entry s.lvlQ e)) { s with rdRsp := none }

/-- A read nobody has answered otherwise is answered from the platform's image: with the cause of its address if reads
there fail, else with the 8 bytes at it in the platform's byte order. That there is an image is the model's choice (log
entry 3). -/
def Obligations.ImageAnswersAnOpenRead : Prop :=
  ∀ s, s.env = [] → s.st = .rdWait → s.rdRsp = none → s.memBusy = false →
    (∀ c, lookupAt s.eaQ.toNat s.failing = some c → step s = step { s with rdRsp := some (.err c) }) ∧
    (lookupAt s.eaQ.toNat s.failing = none →
      step s = step { s with rdRsp := some (.ok (s.mem.readWord s.byteOrder s.eaQ.toNat)) })

/-- With no outside move before it, every step answers a next state: no command word and no entry is illegal (R65, R79)
and there is no fault but the two walk faults, which are responses (R134). -/
def Obligations.EveryStepWithoutMovesCompletes : Prop :=
  ∀ s, s.env = [] → ∃ t, step s = .next t

/-- Every step answers a next state or is refused as an unsolicited answer, and it is so refused exactly when the batch
before it comes to an answer in a state with no read outstanding or with one answered already: the moves before that
answer are made and lead to `u`, where no answer is due. Where one is due an answer is taken as it is and changes
nothing else; elsewhere it is refused. An answer is due in RD_WAIT with none offered yet. That such a run is excluded is
the spec's advice to a model (93_implementation_defined.md I9, I17) and the model's choice (log entry 11). -/
def Obligations.OnlyAnUnsolicitedAnswerIsRefused : Prop :=
  (∀ s, (∃ t, step s = .next t) ∨ step s = .refused .unsolicitedReadResponse) ∧
  (∀ s, step s = .refused .unsolicitedReadResponse ↔
    ∃ pre a post rest u, s.env = (pre ++ EnvMove.answer a :: post) :: rest ∧
      applyBatch pre { s with env := rest } = .next u ∧ mayAnswer u = false) ∧
  (∀ u : State, mayAnswer u = true ↔ u.st = .rdWait ∧ u.rdRsp = none) ∧
  (∀ (s : State) r, s.st = .rdWait → s.rdRsp = none → applyMove (.answer r) s = .next { s with rdRsp := some r }) ∧
  (∀ (s : State) r, (s.st ≠ .rdWait ∨ s.rdRsp ≠ none) →
    applyMove (.answer r) s = .refused .unsolicitedReadResponse)

/-- R17: `st` changes only by the listed transitions, and each of them happens on its event; no move of the host or the
memory but a reset changes it; a step that leaves it leaves the whole state. -/
def Obligations.SequencerMovesExactlyAsListed : Prop :=
  (∀ s t, s.env = [] → step s = .next t → t.st ≠ s.st →
    (s.st = .idle ∧ t.st = .resp ∧ ∃ w rest, s.cmd = w :: rest ∧ w.extractLsb' 0 3 ≠ 0#3 ∧ t.rspQ.isSome = true) ∨
    (s.st = .idle ∧ t.st = .walk ∧ ∃ w rest, s.cmd = w :: rest ∧ w.extractLsb' 0 3 = 0#3) ∨
    (s.st = .walk ∧ t.st = .rdWait ∧ s.memBusy = false ∧ t.rdReqLog = s.rdReqLog ++ [s.eaQ]) ∨
    (s.st = .rdWait ∧ (t.st = .resp ∨ t.st = .walk) ∧ (pendingAnswer s).isSome = true) ∨
    (s.st = .resp ∧ t.st = .idle ∧ s.hostBusy = false)) ∧
  (∀ s t, s.env = [] → step s = .next t →
    (s.st = .idle → s.cmd ≠ [] → t.st = .resp ∨ t.st = .walk) ∧
    (s.st = .walk → s.memBusy = false → t.st = .rdWait) ∧
    (s.st = .rdWait → (pendingAnswer s).isSome = true → t.st = .resp ∨ t.st = .walk) ∧
    (s.st = .resp → s.hostBusy = false → t.st = .idle)) ∧
  (∀ s t : State, applyMove .reset s = .next t → t.st = .idle) ∧
  (∀ (m : EnvMove) s t, m ≠ .reset → applyMove m s = .next t → t.st = s.st) ∧
  (∀ s t, s.env = [] → step s = .next t → t.st = s.st → t = s)

/-- A state with no event offered stays where it is, for ever (R17, R57, R147). -/
def Obligations.WalkerWaitsForEverWhenNothingIsOffered : Prop :=
  ∀ s k, s.env = [] →
    ((s.st = .idle ∧ s.cmd = []) ∨ (s.st = .walk ∧ s.memBusy = true) ∨
      (s.st = .rdWait ∧ s.rdRsp = none ∧ s.memBusy = true) ∨ (s.st = .resp ∧ s.hostBusy = true)) →
    run k s = .next s

/-- R18: `cmd_q` is written on acceptance of every command, `va_q` on acceptance of a TRANSLATE only; a pure command
leaves the four walk registers; between acceptances neither changes, whatever the host does but reset. -/
def Obligations.LatchedRegistersChangeOnlyAtAcceptance : Prop :=
  (∀ s t w rest, s.env = [] → step s = .next t → s.st = .idle → s.cmd = w :: rest →
    t.cmdQ = w ∧
    (w.extractLsb' 0 3 = 0#3 → t.vaQ = w.extractLsb' 72 64) ∧
    (w.extractLsb' 0 3 ≠ 0#3 → t.vaQ = s.vaQ ∧ t.baseQ = s.baseQ ∧ t.lvlQ = s.lvlQ ∧ t.eaQ = s.eaQ)) ∧
  (∀ s t, s.env = [] → step s = .next t → (s.st ≠ .idle ∨ s.cmd = []) → t.cmdQ = s.cmdQ ∧ t.vaQ = s.vaQ) ∧
  (∀ (m : EnvMove) s t, m ≠ .reset → applyMove m s = .next t →
    t.cmdQ = s.cmdQ ∧ t.vaQ = s.vaQ ∧ t.baseQ = s.baseQ ∧ t.lvlQ = s.lvlQ ∧ t.eaQ = s.eaQ)

/-- The level of a walk goes up by exactly one with a table pointer and never otherwise; the PTE level ends the walk; it
starts at PML4 (R20). -/
def Obligations.LevelGoesUpByOneAndEndsAtPte : Prop :=
  (∀ s t, s.env = [] → walking s → step s = .next t →
    (t.lvlQ = s.lvlQ ∧ (s.st = .rdWait → t.st ≠ .walk)) ∨
    (s.st = .rdWait ∧ t.st = .walk ∧ t.lvlQ.code.toNat = s.lvlQ.code.toNat + 1)) ∧
  (∀ s t, s.env = [] → s.st = .rdWait → s.lvlQ = .pte → step s = .next t → t.st ≠ .walk) ∧
  (∀ s t, s.env = [] → s.st = .idle → step s = .next t → t.st = .walk → t.lvlQ = .pml4)

/-- Commands are taken in IDLE only and entries in RD_WAIT at their level only (R14): elsewhere the meaning of the
instruction changes nothing, and a step leaves the host's offers where they are. -/
def Obligations.WordsAreTakenInTheirStatesOnly : Prop :=
  (∀ w s, s.st ≠ .idle → exec (decode (.cmd w)) s = .next s) ∧
  (∀ L e s, (s.st ≠ .rdWait ∨ s.lvlQ ≠ L) → exec (decode (.entry L e)) s = .next s) ∧
  (∀ s t, s.env = [] → s.st ≠ .idle → step s = .next t → t.cmd = s.cmd)

/-! ### Memory, faults and frames -/

/-- No instruction touches memory or a port or anything of the platform: for each of the eighteen, in every state, every
byte reads as before and the queues, the logs, `cmd_q` and the platform's settings are as before. -/
def Obligations.InstructionsLeaveMemoryPortsAndPlatform : Prop :=
  ∀ i s t, exec i s = .next t →
    (∀ a, t.mem.readByte a = s.mem.readByte a) ∧ t.mem = s.mem ∧ t.failing = s.failing ∧
    t.byteOrder = s.byteOrder ∧ t.cmd = s.cmd ∧ t.cmdQ = s.cmdQ ∧ t.rdRsp = s.rdRsp ∧ t.rdReqLog = s.rdReqLog ∧
    t.rspLog = s.rspLog ∧ t.env = s.env ∧ t.hostBusy = s.hostBusy ∧ t.memBusy = s.memBusy ∧ t.freeIdx = s.freeIdx

/-- The walker never writes memory (R46): through a step every byte but those the outside agents write just before it
reads as before. -/
def Obligations.OnlyOutsideAgentsWriteMemory : Prop :=
  ∀ s t a, s.mem.wf = true → step s = .next t →
    (∀ batch rest b, s.env = batch :: rest → ∀ x : BitVec 52, EnvMove.writeMem x b ∈ batch → x.toNat ≠ a) →
    t.mem.readByte a = s.mem.readByte a

/-- A byte another agent writes reads as written, and no other byte changes. -/
def Obligations.OutsideWriteChangesOneByte : Prop :=
  ∀ (s : State) (x : BitVec 52) b, s.mem.wf = true → ∃ t, applyMove (.writeMem x b) s = .next t ∧
    t.mem.readByte x.toNat = b ∧ (∀ a, a ≠ x.toNat → t.mem.readByte a = s.mem.readByte a) ∧ t.mem.wf = true

/-- Memories in canonical form that read alike everywhere are the same list. -/
def Obligations.CanonicalMemoriesThatReadAlikeAreEqual : Prop :=
  ∀ m m' : Memory, m.wf = true → m'.wf = true → (∀ a, m.readByte a = m'.readByte a) → m = m'

/-- The word of 8 bytes in each byte order, as a sum; the little-endian one is the spec's default (R44), the other the
model's choice (log entry 6). No step changes the order. -/
def Obligations.ImageWordFollowsTheByteOrder : Prop :=
  (∀ (m : Memory) a, (m.readWord .little a).toNat =
    ((List.range 8).map fun k => (m.readByte (a + k)).toNat * 2 ^ (8 * k)).sum) ∧
  (∀ (m : Memory) a, (m.readWord .big a).toNat =
    ((List.range 8).map fun k => (m.readByte (a + k)).toNat * 2 ^ (8 * (7 - k))).sum) ∧
  (∀ s t, step s = .next t → t.byteOrder = s.byteOrder)

/-- A FAULT response comes only from a walk, at the level it is at: NotPresent from an entry with bit 0 clear, ReadError
from a read that failed, with its cause (R131, R132, R133, R134). -/
def Obligations.FaultComesOnlyFromTheEntryRead : Prop :=
  ∀ s t r, s.env = [] → s.rspQ = none → step s = .next t → t.rspQ = some r → r.status = .fault →
    s.st = .rdWait ∧ r.level = s.lvlQ ∧
    ((∃ e, pendingAnswer s = some (.ok e) ∧ e.getLsbD 0 = false ∧ r.reason = .notPresent ∧ r.cause = none) ∨
      (∃ c, pendingAnswer s = some (.err c) ∧ r.reason = .readError ∧ r.cause = some c))

/-- R42: every address offered on `rd_req` is a table base, 4 KiB-aligned with bits 63:52 clear, OR i * 8 with i at most
511: 8-byte aligned, bits 63:52 clear, within that table. -/
def Obligations.OfferedReadAddressIsASlotOfATable : Prop :=
  ∀ s a, WalkerInv s → rdReqOffered s = some a →
    ∃ base i : Word, base.extractLsb' 0 12 = 0 ∧ base.extractLsb' 52 12 = 0 ∧ i.toNat ≤ 511 ∧
      a = base ||| (i * 8) ∧ a.extractLsb' 0 3 = 0 ∧ a.extractLsb' 52 12 = 0 ∧
      base.toNat ≤ a.toNat ∧ a.toNat ≤ base.toNat + 4088

/-- The flag bits of a table pointer do not matter: two present table pointers of a level that agree in bits 51:12 lead
to the same state (R123, R124). -/
def Obligations.TablePointerFlagsDoNotMatter : Prop :=
  ∀ L e e' s, e.getLsbD 0 = true → e'.getLsbD 0 = true →
    (L = .pml4 ∨ ((L = .pdpte ∨ L = .pde) ∧ e.getLsbD 7 = false ∧ e'.getLsbD 7 = false)) →
    e &&& 0x000FFFFFFFFFF000 = e' &&& 0x000FFFFFFFFFF000 →
    exec (decode (.entry L e)) s = exec (decode (.entry L e')) s

/-! ### Whole walks -/

/-- TRANSLATE runs the pseudocode (R109), whatever each read answers: from IDLE, with the host and the memory taking at
once and the k-th read answered by `rd`, the walker offers exactly the reads of `translateSpec`, in order, delivers
exactly its response, and is IDLE after 2 + 2n steps for n reads, 1 to 4 (R162). -/
def Obligations.TranslateRunsThePseudocode : Prop :=
  ∀ (rd : Level → Word → ReadResp) (s : State) (w : CmdWord) (rest : List CmdWord) (later : List (List EnvMove)),
    s.st = .idle → s.rdRsp = none → s.memBusy = false → s.hostBusy = false → s.cmd = w :: rest →
    w.extractLsb' 0 3 = 0#3 →
    s.env = answeredScript rd (translateSpec rd (w.extractLsb' 8 64) (w.extractLsb' 72 64)).reads ++ later →
    ∃ t, run (2 + 2 * (translateSpec rd (w.extractLsb' 8 64) (w.extractLsb' 72 64)).reads.length) s = .next t ∧
      t.st = .idle ∧ t.rspQ = none ∧ t.rdRsp = none ∧ t.cmd = rest ∧ t.cmdQ = w ∧ t.vaQ = w.extractLsb' 72 64 ∧
      t.env = later ∧ t.mem = s.mem ∧ t.failing = s.failing ∧
      t.rdReqLog = s.rdReqLog ++ (translateSpec rd (w.extractLsb' 8 64) (w.extractLsb' 72 64)).reads ∧
      t.rspLog = s.rspLog ++ [(translateSpec rd (w.extractLsb' 8 64) (w.extractLsb' 72 64)).response]

/-- The same when the platform's image answers every read: TRANSLATE delivers what the pseudocode gives over the image,
and memory is as before. That there is an image is the model's choice (log entry 3). -/
def Obligations.TranslateOverAnImageRunsThePseudocode : Prop :=
  ∀ (s : State) (w : CmdWord) (rest : List CmdWord),
    s.st = .idle → s.rdRsp = none → s.memBusy = false → s.hostBusy = false → s.cmd = w :: rest →
    w.extractLsb' 0 3 = 0#3 → s.env = [] →
    ∃ t, run (2 + 2 * (translateSpec (fun _ a => memoryAnswer s a) (w.extractLsb' 8 64)
          (w.extractLsb' 72 64)).reads.length) s = .next t ∧
      t.st = .idle ∧ t.rspQ = none ∧ t.cmd = rest ∧ t.mem = s.mem ∧
      t.rdReqLog = s.rdReqLog ++
        (translateSpec (fun _ a => memoryAnswer s a) (w.extractLsb' 8 64) (w.extractLsb' 72 64)).reads ∧
      t.rspLog = s.rspLog ++
        [(translateSpec (fun _ a => memoryAnswer s a) (w.extractLsb' 8 64) (w.extractLsb' 72 64)).response]

/-- The number of reads of a walk follows from its outcome (R121): a FAULT at level L after L + 1 reads, a 1 GiB page
after 2, a 2 MiB page after 3, a 4 KiB page after 4; never fewer than 1 nor more than 4; and the outcome is a FAULT or
a RESOLVED. -/
def Obligations.ReadCountFollowsFromTheOutcome : Prop :=
  ∀ (rd : Level → Word → ReadResp) (root va : Word),
    (1 ≤ (translateSpec rd root va).reads.length ∧ (translateSpec rd root va).reads.length ≤ 4) ∧
    ((translateSpec rd root va).response.status = .fault ∧
        (translateSpec rd root va).reads.length = (translateSpec rd root va).response.level.code.toNat + 1 ∨
      (translateSpec rd root va).response.status = .resolved ∧
        (translateSpec rd root va).reads.length =
          (match (translateSpec rd root va).response.size with | .size1G => 2 | .size2M => 3 | .size4K => 4) ∧
        leafSize (translateSpec rd root va).response.level = some (translateSpec rd root va).response.size)

/-- A command in flight ends within a bounded number of walker steps once the memory and the host answer (R162): from
any state, 9 steps at most bring the walker to IDLE, 10 at most from the acceptance of a command. -/
def Obligations.CommandEndsWithinTenSteps : Prop :=
  (∀ s, s.env = [] → s.memBusy = false → s.hostBusy = false →
    ∃ k t, k ≤ 9 ∧ run k s = .next t ∧ t.st = .idle) ∧
  (∀ s, s.env = [] → s.memBusy = false → s.hostBusy = false → s.st = .idle → s.cmd ≠ [] →
    ∃ k t, 2 ≤ k ∧ k ≤ 10 ∧ run k s = .next t ∧ t.st = .idle ∧ t.cmd = s.cmd.tail)

/-! ### What can not be seen -/

/-- R31: no state passes from one command to the next. Two states that follow different commands (they may differ in
everything that went over `rd_req` and `rsp` before, in `cmd_q`, in the model's free values and, outside a walk, in every
walk register) but have the same offers, platform and walk in flight go on alike, for every number of steps and whatever
the outside agents do: the reads issued and the responses delivered from then on are the same. Both port records only
grow, so what a run appends is all that went over the ports. No register is read before a command writes it. -/
def Obligations.NoStatePassesFromOneCommandToTheNext : Prop :=
  (∀ k s s', sinceView s s = sinceView s' s' →
    seenBy (sinceView s) (run k s) = seenBy (sinceView s') (run k s')) ∧
  (∀ k s t, run k s = .next t → s.rdReqLog <+: t.rdReqLog ∧ s.rspLog <+: t.rspLog)

/-- R122 and the ignored bits: two command words that agree in their significant bits (no reserved bit, no ignored
field, of a TRANSLATE only bits 51:12 of the root and bits 47:0 of the virtual address) are told apart by nothing: after
the word is taken the two runs show the same at every number of steps. -/
def Obligations.IgnoredBitsOfACommandAreNeverSeen : Prop :=
  ∀ (k : Nat) (s : State) (w w' : CmdWord), significantBits w = significantBits w' →
    seenBy lowAddressView (run (k + 1) { s with st := .idle, cmd := w :: s.cmd.tail, env := [] :: s.env.tail }) =
      seenBy lowAddressView (run (k + 1) { s with st := .idle, cmd := w' :: s.cmd.tail, env := [] :: s.env.tail })

/-- The machine whose statements these are is the machine with the type of the causes as an argument (R6), taken at
`ReadCause`: every instruction, the step and the state after reset. -/
def Obligations.MachineIsTheParametricOneAtReadCause : Prop :=
  (∀ i s, exec i s = execOf i s) ∧ (∀ s, step s = stepOf s) ∧ State.reset = State.resetOf ReadCause

/-- The type of the cause is an argument of the machine (R6, D11), and the cause of a read error is opaque to the walker
and carried verbatim (R41, R133): for any two types and any map between them, mapping every cause before a step or after
it is the same, and so for the machine at `ReadCause`. A step that looked at a cause, or answered another one than it was
given, would be told apart by some map. -/
def Obligations.CausesAreCarriedVerbatim : Prop :=
  (∀ (C D : Type) (f : C → D) (s : State C), stepOf (s.mapCause f) = seenBy (State.mapCause f) (stepOf s)) ∧
  (∀ (f : ReadCause → ReadCause) s, step (s.mapCause f) = seenBy (State.mapCause f) (step s)) ∧
  (∀ (C : Type) (c : C) (s : State C), s.env = [] → s.st = .rdWait → s.rdRsp = some (.err c) →
    stepOf s = .next { s with
      st := .resp
      rdRsp := none
      rspQ := some ⟨.fault, .size4K, s.lvlQ, .readError, false, false, 0, 0, some c⟩ })

/-- Walker instances are independent (R144), whatever the type of the causes: a step of one instance is its own step and
leaves every other as it was, steps of two instances may be taken in either order, and each starts in the reset state.
That this gives the registers the spec leaves unspecified the same values in every instance is the model's choice (log
entries 1 and 9). -/
def Obligations.WalkerInstancesAreIndependent : Prop :=
  (∀ (Cause : Type) (p q : Platform Cause) j k, j ≠ k → Platform.stepAt j p = .next q →
    q.instanceAt k = p.instanceAt k ∧ q.count = p.count) ∧
  (∀ (Cause : Type) (p q r : Platform Cause) j k, j ≠ k → Platform.stepAt j p = .next q →
    Platform.stepAt k p = .next r → ∃ u, Platform.stepAt k q = .next u ∧ Platform.stepAt j r = .next u) ∧
  (∀ (Cause : Type) (p : Platform Cause) k s t, p.instanceAt k = some s → stepOf s = .next t →
    ∃ q, Platform.stepAt k p = .next q ∧ q.instanceAt k = some t) ∧
  (∀ (Cause : Type) n k, k ≤ n → (Platform.reset (Cause := Cause) n).instanceAt k = some (State.resetOf Cause))
end

