-- ==== Sys2Proof/Laws/Word.lean ====
section
/-! SUPPORT. 64-bit values bit by bit: equality, disjoint parts, ranges of bits. -/

namespace Sys2Proof

/-- Two 64-bit values with the same 64 bits are equal. -/
theorem word_ext {a b : Word} (h : ∀ i : Fin 64, a.getLsbD i = b.getLsbD i) : a = b :=
  BitVec.eq_of_getLsbD_eq fun i hi => h ⟨i, hi⟩

/-- An OR of disjoint parts is a sum. -/
theorem or_toNat_of_disjoint {a b : Word} (h : a &&& b = 0) : (a ||| b).toNat = a.toNat + b.toNat := by
  rw [← BitVec.add_eq_or_of_and_eq_zero a b h, BitVec.toNat_add_of_and_eq_zero h]

/-- Bits of different ranges are disjoint: a value with only bits from `n` on and one below `2 ^ n`. -/
theorem and_eq_zero_of_ranges {a b : Word} (n : Nat) (ha : ∀ i : Fin 64, i.val < n → a.getLsbD i = false)
    (hb : b.toNat < 2 ^ n) : a &&& b = 0 := by
  apply word_ext
  intro i
  rw [BitVec.getLsbD_and, show (0 : Word).getLsbD i = false from BitVec.getLsbD_zero]
  by_cases hi : i.val < n
  · rw [ha i hi, Bool.false_and]
  · rw [← BitVec.testBit_toNat b, Nat.testBit_lt_two_pow (lt_of_lt_of_le hb (Nat.pow_le_pow_right (by decide) (by omega))),
      Bool.and_false]

/-- A value with no bit from `n` on is below `2 ^ n`. -/
theorem toNat_lt_of_high_bits {a : Word} (n : Nat) (h : ∀ i : Fin 64, n ≤ i.val → a.getLsbD i = false) :
    a.toNat < 2 ^ n := by
  apply Nat.lt_pow_two_of_testBit
  intro i hi
  rw [BitVec.testBit_toNat]
  by_cases hi' : i < 64
  · exact h ⟨i, hi'⟩ hi
  · exact BitVec.getLsbD_of_ge _ _ (by omega)

/-- A value with no bit below `n` is a multiple of `2 ^ n`. -/
theorem toNat_mod_of_low_bits {a : Word} (n : Nat) (hn : n ≤ 64) (h : ∀ i : Fin 64, i.val < n → a.getLsbD i = false) :
    a.toNat % 2 ^ n = 0 := by
  apply Nat.eq_of_testBit_eq
  intro i
  rw [Nat.testBit_mod_two_pow, Nat.zero_testBit, BitVec.testBit_toNat]
  by_cases hi : i < n
  · rw [h ⟨i, by omega⟩ hi, Bool.and_false]
  · rw [decide_eq_false hi, Bool.false_and]

/-- Joined values as a sum. -/
theorem toNat_append_sum {n m : Nat} (x : BitVec n) (y : BitVec m) : (x ++ y).toNat = x.toNat * 2 ^ m + y.toNat := by
  rw [BitVec.toNat_append, ← Nat.shiftLeft_add_eq_or_of_lt y.isLt, Nat.shiftLeft_eq]

/-- Eight joined bytes, the last one lowest, as a sum. -/
theorem toNat_append_bytes (b0 b1 b2 b3 b4 b5 b6 b7 : Byte) :
    (b7 ++ b6 ++ b5 ++ b4 ++ b3 ++ b2 ++ b1 ++ b0).toNat =
      b0.toNat + 2 ^ 8 * (b1.toNat + 2 ^ 8 * (b2.toNat + 2 ^ 8 * (b3.toNat + 2 ^ 8 * (b4.toNat +
        2 ^ 8 * (b5.toNat + 2 ^ 8 * (b6.toNat + 2 ^ 8 * b7.toNat)))))) := by
  simp only [toNat_append_sum]
  ring

end Sys2Proof
end

