-- ==== Sys2Proof/Laws/Decode.lean ====
section
/-! SUPPORT. The fields of a command word built from fields, the level codes, and the entry classes in terms of the two
bits the walker decodes. -/

namespace Sys2Proof

@[simp] theorem Level.ofCode_code (L : Level) : Level.ofCode L.code = L := by cases L <;> rfl

@[simp] theorem Level.code_ofCode (c : BitVec 2) : (Level.ofCode c).code = c := by revert c; decide

/-- The header byte of a command word is its lowest eight bits. -/
theorem header_of_cmdWord (op : BitVec 3) (lvl : BitVec 2) (opa opb : Word) :
    (cmdWord op lvl opa opb).extractLsb' 0 8 = 0#3 ++ lvl ++ op := by
  unfold cmdWord
  exact BitVec.extractLsb'_append_eq_right

/-- A command word bit by bit. -/
theorem cmdWord_bit (op : BitVec 3) (lvl : BitVec 2) (opa opb : Word) (i : Nat) :
    (cmdWord op lvl opa opb).getLsbD i =
      if i < 3 then op.getLsbD i else if i < 5 then lvl.getLsbD (i - 3) else if i < 8 then false
      else if i < 72 then opa.getLsbD (i - 8) else opb.getLsbD (i - 72) := by
  change BitVec.getLsbD (w := 64 + 64 + (3 + 2 + 3)) (opb ++ opa ++ (0#3 ++ lvl ++ op)) i = _
  simp only [BitVec.getLsbD_append]
  split_ifs <;> first | rfl | omega | simp

@[simp] theorem cmdOp_cmdWord (op : BitVec 3) (lvl : BitVec 2) (opa opb : Word) :
    cmdOp (cmdWord op lvl opa opb) = op := by
  apply BitVec.eq_of_getLsbD_eq
  intro i hi
  rw [cmdOp, BitVec.getLsbD_extractLsb', cmdWord_bit, if_pos (by omega)]
  simp [hi]

@[simp] theorem cmdLvl_cmdWord (op : BitVec 3) (lvl : BitVec 2) (opa opb : Word) :
    cmdLvl (cmdWord op lvl opa opb) = lvl := by
  apply BitVec.eq_of_getLsbD_eq
  intro i hi
  rw [cmdLvl, BitVec.getLsbD_extractLsb', cmdWord_bit, if_neg (by omega), if_pos (by omega)]
  simp [hi]

@[simp] theorem cmdOpa_cmdWord (op : BitVec 3) (lvl : BitVec 2) (opa opb : Word) :
    cmdOpa (cmdWord op lvl opa opb) = opa := by
  apply BitVec.eq_of_getLsbD_eq
  intro i hi
  rw [cmdOpa, BitVec.getLsbD_extractLsb', cmdWord_bit, if_neg (by omega), if_neg (by omega), if_neg (by omega),
    if_pos (by omega)]
  simp [hi]

@[simp] theorem cmdOpb_cmdWord (op : BitVec 3) (lvl : BitVec 2) (opa opb : Word) :
    cmdOpb (cmdWord op lvl opa opb) = opb := by
  apply BitVec.eq_of_getLsbD_eq
  intro i hi
  rw [cmdOpb, BitVec.getLsbD_extractLsb', cmdWord_bit, if_neg (by omega), if_neg (by omega), if_neg (by omega),
    if_neg (by omega)]
  simp [hi]

/-! ### The command of a word, by its op field (R63) -/

/-- The op field has eight values. -/
theorem cmdOp_cases (w : CmdWord) :
    cmdOp w = 0 ∨ cmdOp w = 1 ∨ cmdOp w = 2 ∨ cmdOp w = 3 ∨ cmdOp w = 4 ∨ cmdOp w = 5 ∨ cmdOp w = 6 ∨ cmdOp w = 7 := by
  generalize cmdOp w = x
  revert x
  decide

theorem decodeCmd_translate {w : CmdWord} (h : cmdOp w = 0) : decodeCmd w = .translate (cmdOpa w) (cmdOpb w) := by
  simp [decodeCmd, h]

theorem decodeCmd_decodeEntry {w : CmdWord} (h : cmdOp w = 1) : decodeCmd w = .decodeEntry (Level.ofCode (cmdLvl w)) (cmdOpa w) := by
  simp [decodeCmd, h]

theorem decodeCmd_getPml4Index {w : CmdWord} (h : cmdOp w = 2) : decodeCmd w = .getPml4Index (cmdOpa w) := by
  simp [decodeCmd, h]

theorem decodeCmd_getPdpteIndex {w : CmdWord} (h : cmdOp w = 3) : decodeCmd w = .getPdpteIndex (cmdOpa w) := by
  simp [decodeCmd, h]

theorem decodeCmd_getPdeIndex {w : CmdWord} (h : cmdOp w = 4) : decodeCmd w = .getPdeIndex (cmdOpa w) := by
  simp [decodeCmd, h]

theorem decodeCmd_getPteIndex {w : CmdWord} (h : cmdOp w = 5) : decodeCmd w = .getPteIndex (cmdOpa w) := by
  simp [decodeCmd, h]

theorem decodeCmd_getTableBase {w : CmdWord} (h : cmdOp w = 6) : decodeCmd w = .getTableBase (cmdOpa w) := by
  simp [decodeCmd, h]

theorem decodeCmd_computeEntryAddress {w : CmdWord} (h : cmdOp w = 7) : decodeCmd w = .computeEntryAddress (cmdOpa w) (cmdOpb w) := by
  simp [decodeCmd, h]

/-! ### The entry classes (30_encoding.md R78): bit 0 and bit 7 -/

@[simp] theorem inClass_notPresent (e : Word) : inClass 0x1#64 0x0#64 e = !e.getLsbD 0 := by
  have hm : ∀ i : Fin 64, (0x1#64).getLsbD i = decide (i.val = 0) := by decide
  have hz : ∀ i : Fin 64, (0x0#64).getLsbD i = false := by decide
  rw [Bool.eq_iff_iff, inClass, beq_iff_eq]
  refine ⟨fun h => ?_, fun h => word_ext fun i => ?_⟩
  · have := congrArg (BitVec.getLsbD · 0) h
    rw [BitVec.getLsbD_and, show (0x1#64).getLsbD 0 = true by decide, show (0x0#64).getLsbD 0 = false by decide] at this
    simpa using this
  · rw [BitVec.getLsbD_and, hm, hz]
    by_cases hi : i.val = 0
    · simpa [hi] using h
    · simp [hi]

@[simp] theorem inClass_present (e : Word) : inClass 0x1#64 0x1#64 e = e.getLsbD 0 := by
  have hm : ∀ i : Fin 64, (0x1#64).getLsbD i = decide (i.val = 0) := by decide
  rw [Bool.eq_iff_iff, inClass, beq_iff_eq]
  refine ⟨fun h => ?_, fun h => word_ext fun i => ?_⟩
  · have := congrArg (BitVec.getLsbD · 0) h
    rw [BitVec.getLsbD_and, show (0x1#64).getLsbD 0 = true by decide] at this
    simpa using this
  · rw [BitVec.getLsbD_and, hm]
    by_cases hi : i.val = 0
    · simpa [hi] using h
    · simp [hi]

@[simp] theorem inClass_table (e : Word) : inClass 0x81#64 0x01#64 e = (e.getLsbD 0 && !e.getLsbD 7) := by
  have hm : ∀ i : Fin 64, (0x81#64).getLsbD i = decide (i.val = 0 ∨ i.val = 7) := by decide
  have hp : ∀ i : Fin 64, (0x01#64).getLsbD i = decide (i.val = 0) := by decide
  rw [Bool.eq_iff_iff, inClass, beq_iff_eq]
  refine ⟨fun h => ?_, fun h => word_ext fun i => ?_⟩
  · have h0 := congrArg (BitVec.getLsbD · 0) h
    have h7 := congrArg (BitVec.getLsbD · 7) h
    rw [BitVec.getLsbD_and, show (0x81#64).getLsbD 0 = true by decide, show (0x01#64).getLsbD 0 = true by decide] at h0
    rw [BitVec.getLsbD_and, show (0x81#64).getLsbD 7 = true by decide, show (0x01#64).getLsbD 7 = false by decide] at h7
    simp_all
  · rw [Bool.and_eq_true, Bool.not_eq_true'] at h
    rw [BitVec.getLsbD_and, hm, hp]
    by_cases hi : i.val = 0
    · simpa [hi] using h.1
    · by_cases hj : i.val = 7
      · simpa [hj] using h.2
      · simp [hi, hj]

@[simp] theorem inClass_leaf (e : Word) : inClass 0x81#64 0x81#64 e = (e.getLsbD 0 && e.getLsbD 7) := by
  have hm : ∀ i : Fin 64, (0x81#64).getLsbD i = decide (i.val = 0 ∨ i.val = 7) := by decide
  rw [Bool.eq_iff_iff, inClass, beq_iff_eq]
  refine ⟨fun h => ?_, fun h => word_ext fun i => ?_⟩
  · have h0 := congrArg (BitVec.getLsbD · 0) h
    have h7 := congrArg (BitVec.getLsbD · 7) h
    rw [BitVec.getLsbD_and, show (0x81#64).getLsbD 0 = true by decide] at h0
    rw [BitVec.getLsbD_and, show (0x81#64).getLsbD 7 = true by decide] at h7
    simp_all
  · rw [Bool.and_eq_true] at h
    rw [BitVec.getLsbD_and, hm]
    by_cases hi : i.val = 0
    · simpa [hi] using h.1
    · by_cases hj : i.val = 7
      · simpa [hj] using h.2
      · simp [hi, hj]

end Sys2Proof
end

