-- ==== Sys2Proof/Laws/Layout.lean ====
section
/-! SUPPORT. The layout functions in the field notation of the spec: an index is a 9-bit field, a mask is a range of
bits, an OR of disjoint parts is a sum. -/

namespace Sys2Proof.Machine

/-! ### The masks, bit by bit -/

theorem indexMask_bit (i : Fin 64) : indexMask.getLsbD i = decide (i.val < 9) := by revert i; decide

theorem tableBaseMask_bit (i : Fin 64) : tableBaseMask.getLsbD i = decide (12 ≤ i.val ∧ i.val ≤ 51) := by
  revert i; decide

theorem pdpte1gAddrMask_bit (i : Fin 64) : pdpte1gAddrMask.getLsbD i = decide (30 ≤ i.val ∧ i.val ≤ 51) := by
  revert i; decide

theorem pde2mAddrMask_bit (i : Fin 64) : pde2mAddrMask.getLsbD i = decide (21 ≤ i.val ∧ i.val ≤ 51) := by
  revert i; decide

/-- The lowest bit an address mask keeps. -/
def kindLow : EntryKind → Nat
  | .tablePointer => 12
  | .leaf1G => 30
  | .leaf2M => 21
  | .leaf4K => 12

/-- Every address mask is a range of bits up to 51. -/
theorem kindMask_bit (k : EntryKind) (i : Fin 64) :
    (kindMask k).getLsbD i = decide (kindLow k ≤ i.val ∧ i.val ≤ 51) := by
  cases k <;> revert i <;> decide

/-- `AMASK` at the kind an entry has is the mask the decoder uses (42_entry_decoder.md R96). -/
theorem addrMask_isLeafAt (L : Level) (e : Word) : addrMask L (isLeafAt L e) = some (kindMask (entryKind L e)) := by
  cases L
  · rfl
  · simp only [entryKind]; split
    · next h => rw [h]; rfl
    · next h => rw [Bool.not_eq_true] at h; rw [h]; rfl
  · simp only [entryKind]; split
    · next h => rw [h]; rfl
    · next h => rw [Bool.not_eq_true] at h; rw [h]; rfl
  · rfl

/-- The decoder's fields by the kind of the entry. -/
theorem decodeFields_of_kind {L : Level} {e : Word} {k : EntryKind} (h : entryKind L e = k) :
    decodeFields L e = ⟨e.getLsbD (presentBit L), isLeafAt L e, e &&& kindMask k, flagsUnder (kindMask k) e⟩ := by
  rw [← h]; rfl

theorem entryKind_pdpte_leaf {e : Word} (h : e.getLsbD 7 = true) : entryKind .pdpte e = .leaf1G := if_pos h

theorem entryKind_pdpte_table {e : Word} (h : e.getLsbD 7 = false) : entryKind .pdpte e = .tablePointer :=
  if_neg (by rw [isLeafAt, pdptePs, h]; exact Bool.false_ne_true)

theorem entryKind_pde_leaf {e : Word} (h : e.getLsbD 7 = true) : entryKind .pde e = .leaf2M := if_pos h

theorem entryKind_pde_table {e : Word} (h : e.getLsbD 7 = false) : entryKind .pde e = .tablePointer :=
  if_neg (by rw [isLeafAt, pdePs, h]; exact Bool.false_ne_true)

/-- The flags of a table pointer or a PTE: bits 63:52 and 11:0 (42_entry_decoder.md R100). -/
theorem flagsUnder_table (e : Word) : flagsUnder tableBaseMask e = e &&& 0xFFF0000000000FFF := rfl

/-- The flags of a 1 GiB leaf: bits 63:52 and 29:0. -/
theorem flagsUnder_1g (e : Word) : flagsUnder pdpte1gAddrMask e = e &&& 0xFFF000003FFFFFFF := rfl

/-- The flags of a 2 MiB leaf: bits 63:52 and 20:0. -/
theorem flagsUnder_2m (e : Word) : flagsUnder pde2mAddrMask e = e &&& 0xFFF00000001FFFFF := rfl

/-! ### Indices and entry addresses -/

theorem shift_and_indexMask (va : Word) (n : Nat) : va >>> n &&& indexMask = (va.extractLsb' n 9).setWidth 64 := by
  apply word_ext
  intro i
  rw [BitVec.getLsbD_and, indexMask_bit, BitVec.getLsbD_ushiftRight, BitVec.getLsbD_setWidth, BitVec.getLsbD_extractLsb']
  simp [Bool.and_comm]

/-- `IDX(L, va)` is the field of `va` from bit `SHIFT(L)` on (41_bitfield_layout.md R86). -/
theorem idx_eq_field (L : Level) (va : Word) : idx L va = (va.extractLsb' (shift L) 9).setWidth 64 :=
  shift_and_indexMask va (shift L)

theorem idx_lt (L : Level) (va : Word) : (idx L va).toNat < 512 := by
  rw [idx_eq_field, BitVec.toNat_setWidth_of_le (by decide)]
  exact BitVec.isLt _

/-- Cutting an index to 9 bits changes nothing. -/
theorem idx_cut (L : Level) (va : Word) : ((idx L va).setWidth 9).setWidth 64 = idx L va := by
  apply BitVec.eq_of_toNat_eq
  have := idx_lt L va
  simp only [BitVec.toNat_setWidth]
  omega

/-- The entry address of a level is the base OR the field times 8 (R94, 43_walker.md R111). -/
theorem entryAddress_idx (base va : Word) (L : Level) :
    entryAddress base (idx L va) = (base &&& tableBaseMask) ||| ((va.extractLsb' (shift L) 9).setWidth 64 * 8) := by
  rw [entryAddress, idx_cut, idx_eq_field]; rfl

/-- A base and a scaled index share no bit (41_bitfield_layout.md R95, law 2). -/
theorem base_slot_disjoint (base : Word) (index : BitVec 9) :
    (base &&& tableBaseMask) &&& (index.setWidth 64 * 8) = 0 := by
  apply and_eq_zero_of_ranges 12
  · intro i hi
    rw [BitVec.getLsbD_and, tableBaseMask_bit, decide_eq_false (by omega), Bool.and_false]
  · have := index.isLt
    simp only [BitVec.toNat_mul, BitVec.toNat_setWidth, show (8 : Word).toNat = 8 from rfl]
    omega

theorem slot_toNat (index : BitVec 9) : (index.setWidth 64 * 8 : Word).toNat = index.toNat * 8 := by
  have := index.isLt
  simp only [BitVec.toNat_mul, BitVec.toNat_setWidth, show (8 : Word).toNat = 8 from rfl]
  omega

/-- An entry address is the base plus 8 times the index cut to 9 bits (R94, R95). -/
theorem entryAddress_toNat (base index : Word) :
    (entryAddress base index).toNat = (base &&& tableBaseMask).toNat + index.toNat % 512 * 8 := by
  have h := or_toNat_of_disjoint (base_slot_disjoint base (index.setWidth 9))
  rw [slot_toNat, BitVec.toNat_setWidth] at h
  exact h

theorem masked_base_lt (base : Word) : (base &&& tableBaseMask).toNat < 2 ^ 52 := by
  apply toNat_lt_of_high_bits
  intro i hi
  rw [BitVec.getLsbD_and, tableBaseMask_bit, decide_eq_false (by omega), Bool.and_false]

theorem masked_base_aligned (base : Word) : (base &&& tableBaseMask).toNat % 4096 = 0 := by
  apply toNat_mod_of_low_bits 12 (by decide)
  intro i hi
  rw [BitVec.getLsbD_and, tableBaseMask_bit, decide_eq_false (by omega), Bool.and_false]

theorem entryAddress_lt (base index : Word) : (entryAddress base index).toNat < 2 ^ 52 := by
  have := entryAddress_toNat base index
  have := masked_base_lt base
  have := masked_base_aligned base
  omega

theorem entryAddress_aligned (base index : Word) : (entryAddress base index).toNat % 8 = 0 := by
  have := entryAddress_toNat base index
  have := masked_base_aligned base
  omega

/-- Masking twice is masking once. -/
theorem masked_base_idem (base : Word) : base &&& tableBaseMask &&& tableBaseMask = base &&& tableBaseMask := by
  rw [BitVec.and_assoc, BitVec.and_self]

end Sys2Proof.Machine
end

