-- ==== Sys2Proof/Laws/Memory.lean ====
section
/-! SUPPORT. The memory operations: what a read gives after a write, and that every operation keeps the canonical form. -/

namespace Sys2Proof.Machine

/-! ### Reading what is listed -/

theorem lookupAt_insertAt_self {α : Type} (a : Nat) (v : α) (m : List (Nat × α)) :
    lookupAt a (insertAt a v m) = some v := by
  induction m with
  | nil => simp [insertAt, lookupAt]
  | cons c rest ih =>
    obtain ⟨k, u⟩ := c
    simp only [insertAt]
    split
    · simp [lookupAt]
    · split
      · simp [lookupAt]
      · next h => simp [lookupAt, Ne.symm h, ih]

theorem lookupAt_insertAt_other {α : Type} {a b : Nat} (v : α) (m : List (Nat × α)) (h : b ≠ a) :
    lookupAt b (insertAt a v m) = lookupAt b m := by
  induction m with
  | nil => simp [insertAt, lookupAt, Ne.symm h]
  | cons c rest ih =>
    obtain ⟨k, u⟩ := c
    simp only [insertAt]
    split
    · simp [lookupAt, Ne.symm h]
    · split
      · next hk => subst hk; simp [lookupAt, Ne.symm h]
      · simp [lookupAt, ih]

theorem lookupAt_removeAt_other {α : Type} {a b : Nat} (m : List (Nat × α)) (h : b ≠ a) :
    lookupAt b (removeAt a m) = lookupAt b m := by
  induction m with
  | nil => rfl
  | cons c rest ih =>
    obtain ⟨k, u⟩ := c
    simp only [removeAt]
    split
    · next hk => subst hk; simp [lookupAt, Ne.symm h]
    · simp [lookupAt, ih]

/-- Below its first key a rising list lists nothing. -/
theorem lookupAt_below {α : Type} {lo a : Nat} {m : List (Nat × α)} (h : risingFrom lo m = true) (ha : a < lo) :
    lookupAt a m = none := by
  induction m generalizing lo with
  | nil => rfl
  | cons c rest ih =>
    obtain ⟨k, u⟩ := c
    simp only [risingFrom, Bool.and_eq_true, decide_eq_true_eq] at h
    simp only [lookupAt]
    rw [if_neg (by omega), ih h.2 (by omega)]

theorem lookupAt_removeAt_self {α : Type} {lo : Nat} (a : Nat) {m : List (Nat × α)} (h : risingFrom lo m = true) :
    lookupAt a (removeAt a m) = none := by
  induction m generalizing lo with
  | nil => rfl
  | cons c rest ih =>
    obtain ⟨k, u⟩ := c
    simp only [risingFrom, Bool.and_eq_true, decide_eq_true_eq] at h
    simp only [removeAt]
    split
    · next hk => subst hk; exact lookupAt_below h.2 (by omega)
    · next hk => simp [lookupAt, hk, ih h.2]

/-- What a rising list lists at a key stands in it. -/
theorem mem_of_lookupAt {α : Type} {a : Nat} {v : α} {m : List (Nat × α)} (h : lookupAt a m = some v) : (a, v) ∈ m := by
  induction m with
  | nil => simp [lookupAt] at h
  | cons c rest ih =>
    obtain ⟨k, u⟩ := c
    simp only [lookupAt] at h
    split at h
    · next hk => subst hk; simp_all
    · exact List.mem_cons_of_mem _ (ih h)

/-! ### The canonical form is kept -/

theorem risingFrom_mono {α : Type} {lo hi : Nat} {m : List (Nat × α)} (h : risingFrom hi m = true) (hle : lo ≤ hi) :
    risingFrom lo m = true := by
  cases m with
  | nil => rfl
  | cons c rest =>
    obtain ⟨k, u⟩ := c
    simp only [risingFrom, Bool.and_eq_true, decide_eq_true_eq] at h ⊢
    exact ⟨by omega, h.2⟩

theorem risingFrom_insertAt {α : Type} {lo a : Nat} (v : α) {m : List (Nat × α)} (h : risingFrom lo m = true)
    (ha : lo ≤ a) : risingFrom lo (insertAt a v m) = true := by
  induction m generalizing lo with
  | nil => simpa [insertAt, risingFrom] using ha
  | cons c rest ih =>
    obtain ⟨k, u⟩ := c
    simp only [risingFrom, Bool.and_eq_true, decide_eq_true_eq] at h
    simp only [insertAt]
    split
    · simp only [risingFrom, Bool.and_eq_true, decide_eq_true_eq]
      exact ⟨ha, by omega, h.2⟩
    · split
      · next hk =>
        subst hk
        simp only [risingFrom, Bool.and_eq_true, decide_eq_true_eq]
        exact h
      · simp only [risingFrom, Bool.and_eq_true, decide_eq_true_eq]
        exact ⟨h.1, ih h.2 (by omega)⟩

theorem risingFrom_removeAt {α : Type} {lo : Nat} (a : Nat) {m : List (Nat × α)} (h : risingFrom lo m = true) :
    risingFrom lo (removeAt a m) = true := by
  induction m generalizing lo with
  | nil => rfl
  | cons c rest ih =>
    obtain ⟨k, u⟩ := c
    simp only [risingFrom, Bool.and_eq_true, decide_eq_true_eq] at h
    simp only [removeAt]
    split
    · exact risingFrom_mono h.2 (by omega)
    · simp only [risingFrom, Bool.and_eq_true, decide_eq_true_eq]
      exact ⟨h.1, ih h.2⟩

theorem mem_insertAt {α : Type} {a : Nat} {v : α} {m : List (Nat × α)} {c : Nat × α} (h : c ∈ insertAt a v m) :
    c = (a, v) ∨ c ∈ m := by
  induction m with
  | nil => simpa [insertAt] using h
  | cons d rest ih =>
    obtain ⟨k, u⟩ := d
    simp only [insertAt] at h
    split at h
    · simpa using h
    · split at h
      · rcases List.mem_cons.1 h with h | h
        · exact .inl h
        · exact .inr (List.mem_cons_of_mem _ h)
      · rcases List.mem_cons.1 h with h | h
        · exact .inr (h ▸ List.mem_cons_self)
        · exact (ih h).imp id (List.mem_cons_of_mem _)

theorem mem_of_mem_removeAt {α : Type} {a : Nat} {m : List (Nat × α)} {c : Nat × α} (h : c ∈ removeAt a m) : c ∈ m := by
  induction m with
  | nil => exact h
  | cons d rest ih =>
    obtain ⟨k, u⟩ := d
    simp only [removeAt] at h
    split at h
    · exact List.mem_cons_of_mem _ h
    · rcases List.mem_cons.1 h with h | h
      · exact h ▸ List.mem_cons_self
      · exact List.mem_cons_of_mem _ (ih h)

/-- The canonical form of the memory, spelt out. -/
theorem Memory.wf_iff (m : Memory) :
    m.wf = true ↔ risingFrom 0 m = true ∧ ∀ c ∈ m, c.1 < spaceBytes ∧ c.2 ≠ Config.unlistedByte := by
  simp [Memory.wf, List.all_eq_true]

theorem failingWf_iff {Cause : Type} (f : List (Nat × Cause)) :
    failingWf f = true ↔ risingFrom 0 f = true ∧ ∀ c ∈ f, c.1 < spaceBytes := by
  simp [failingWf, List.all_eq_true]

/-- A write inside the space keeps the canonical form. -/
theorem Memory.writeByte_wf {m : Memory} {a : Nat} (b : Byte) (h : m.wf = true) (ha : a < spaceBytes) :
    (m.writeByte a b).wf = true := by
  rw [Memory.wf_iff] at h ⊢
  unfold Memory.writeByte
  split
  · exact ⟨risingFrom_removeAt a h.1, fun c hc => h.2 c (mem_of_mem_removeAt hc)⟩
  · next hb =>
    refine ⟨risingFrom_insertAt b h.1 (Nat.zero_le a), fun c hc => ?_⟩
    rcases mem_insertAt hc with rfl | hc
    · exact ⟨ha, hb⟩
    · exact h.2 c hc

theorem failingWf_insertAt {Cause : Type} {f : List (Nat × Cause)} {a : Nat} (c : Cause) (h : failingWf f = true)
    (ha : a < spaceBytes) : failingWf (insertAt a c f) = true := by
  rw [failingWf_iff] at h ⊢
  refine ⟨risingFrom_insertAt c h.1 (Nat.zero_le a), fun d hd => ?_⟩
  rcases mem_insertAt hd with rfl | hd
  · exact ha
  · exact h.2 d hd

theorem failingWf_removeAt {Cause : Type} {f : List (Nat × Cause)} (a : Nat) (h : failingWf f = true) :
    failingWf (removeAt a f) = true := by
  rw [failingWf_iff] at h ⊢
  exact ⟨risingFrom_removeAt a h.1, fun d hd => h.2 d (mem_of_mem_removeAt hd)⟩

/-- A byte reads as it was last written; every other byte reads as before. -/
theorem Memory.readByte_writeByte {m : Memory} (a x : Nat) (b : Byte) (h : m.wf = true) :
    (m.writeByte a b).readByte x = if x = a then b else m.readByte x := by
  rw [Memory.wf_iff] at h
  unfold Memory.writeByte Memory.readByte
  by_cases hx : x = a
  · subst hx
    split
    · next hb => simp [lookupAt_removeAt_self x h.1, hb]
    · simp [lookupAt_insertAt_self]
  · split
    · simp [lookupAt_removeAt_other _ hx]
    · simp [lookupAt_insertAt_other _ _ hx]

end Sys2Proof.Machine
end

