-- ==== Sys2Proof/Laws/State.lean ====
section
/-! SUPPORT. What each operation on the state does to each field, one lemma per field, so that no proof unfolds a record
update. A raised fault is a response (`raiseFault_eq`); of a reset only the fields it determines are named. -/

namespace Sys2Proof.Machine

variable {Cause : Type}

@[simp] theorem raiseFault_eq (L : Level) (reason : Reason) (cause : Option Cause) (s : State Cause) :
    raiseFault L reason cause s = respond (faultResponse L reason cause) s := rfl

/-! ### takeCommand -/

@[simp] theorem takeCommand_st (w : CmdWord) (rest : List CmdWord) (s : State Cause) : (takeCommand w rest s).st = s.st := rfl
@[simp] theorem takeCommand_cmdQ (w : CmdWord) (rest : List CmdWord) (s : State Cause) : (takeCommand w rest s).cmdQ = w := rfl
@[simp] theorem takeCommand_vaQ (w : CmdWord) (rest : List CmdWord) (s : State Cause) : (takeCommand w rest s).vaQ = s.vaQ := rfl
@[simp] theorem takeCommand_baseQ (w : CmdWord) (rest : List CmdWord) (s : State Cause) : (takeCommand w rest s).baseQ = s.baseQ := rfl
@[simp] theorem takeCommand_lvlQ (w : CmdWord) (rest : List CmdWord) (s : State Cause) : (takeCommand w rest s).lvlQ = s.lvlQ := rfl
@[simp] theorem takeCommand_eaQ (w : CmdWord) (rest : List CmdWord) (s : State Cause) : (takeCommand w rest s).eaQ = s.eaQ := rfl
@[simp] theorem takeCommand_rspQ (w : CmdWord) (rest : List CmdWord) (s : State Cause) : (takeCommand w rest s).rspQ = s.rspQ := rfl
@[simp] theorem takeCommand_cmd (w : CmdWord) (rest : List CmdWord) (s : State Cause) : (takeCommand w rest s).cmd = rest := rfl
@[simp] theorem takeCommand_rdRsp (w : CmdWord) (rest : List CmdWord) (s : State Cause) : (takeCommand w rest s).rdRsp = s.rdRsp := rfl
@[simp] theorem takeCommand_rdReqLog (w : CmdWord) (rest : List CmdWord) (s : State Cause) : (takeCommand w rest s).rdReqLog = s.rdReqLog := rfl
@[simp] theorem takeCommand_rspLog (w : CmdWord) (rest : List CmdWord) (s : State Cause) : (takeCommand w rest s).rspLog = s.rspLog := rfl
@[simp] theorem takeCommand_env (w : CmdWord) (rest : List CmdWord) (s : State Cause) : (takeCommand w rest s).env = s.env := rfl
@[simp] theorem takeCommand_hostBusy (w : CmdWord) (rest : List CmdWord) (s : State Cause) : (takeCommand w rest s).hostBusy = s.hostBusy := rfl
@[simp] theorem takeCommand_memBusy (w : CmdWord) (rest : List CmdWord) (s : State Cause) : (takeCommand w rest s).memBusy = s.memBusy := rfl
@[simp] theorem takeCommand_mem (w : CmdWord) (rest : List CmdWord) (s : State Cause) : (takeCommand w rest s).mem = s.mem := rfl
@[simp] theorem takeCommand_failing (w : CmdWord) (rest : List CmdWord) (s : State Cause) : (takeCommand w rest s).failing = s.failing := rfl
@[simp] theorem takeCommand_byteOrder (w : CmdWord) (rest : List CmdWord) (s : State Cause) : (takeCommand w rest s).byteOrder = s.byteOrder := rfl
@[simp] theorem takeCommand_freeIdx (w : CmdWord) (rest : List CmdWord) (s : State Cause) : (takeCommand w rest s).freeIdx = s.freeIdx := rfl

/-! ### issueRead -/

@[simp] theorem issueRead_st (s : State Cause) : (issueRead s).st = .rdWait := rfl
@[simp] theorem issueRead_cmdQ (s : State Cause) : (issueRead s).cmdQ = s.cmdQ := rfl
@[simp] theorem issueRead_vaQ (s : State Cause) : (issueRead s).vaQ = s.vaQ := rfl
@[simp] theorem issueRead_baseQ (s : State Cause) : (issueRead s).baseQ = s.baseQ := rfl
@[simp] theorem issueRead_lvlQ (s : State Cause) : (issueRead s).lvlQ = s.lvlQ := rfl
@[simp] theorem issueRead_eaQ (s : State Cause) : (issueRead s).eaQ = s.eaQ := rfl
@[simp] theorem issueRead_rspQ (s : State Cause) : (issueRead s).rspQ = s.rspQ := rfl
@[simp] theorem issueRead_cmd (s : State Cause) : (issueRead s).cmd = s.cmd := rfl
@[simp] theorem issueRead_rdRsp (s : State Cause) : (issueRead s).rdRsp = s.rdRsp := rfl
@[simp] theorem issueRead_rdReqLog (s : State Cause) : (issueRead s).rdReqLog = s.rdReqLog ++ [s.eaQ] := rfl
@[simp] theorem issueRead_rspLog (s : State Cause) : (issueRead s).rspLog = s.rspLog := rfl
@[simp] theorem issueRead_env (s : State Cause) : (issueRead s).env = s.env := rfl
@[simp] theorem issueRead_hostBusy (s : State Cause) : (issueRead s).hostBusy = s.hostBusy := rfl
@[simp] theorem issueRead_memBusy (s : State Cause) : (issueRead s).memBusy = s.memBusy := rfl
@[simp] theorem issueRead_mem (s : State Cause) : (issueRead s).mem = s.mem := rfl
@[simp] theorem issueRead_failing (s : State Cause) : (issueRead s).failing = s.failing := rfl
@[simp] theorem issueRead_byteOrder (s : State Cause) : (issueRead s).byteOrder = s.byteOrder := rfl
@[simp] theorem issueRead_freeIdx (s : State Cause) : (issueRead s).freeIdx = s.freeIdx := rfl

/-! ### takeAnswer -/

@[simp] theorem takeAnswer_st (s : State Cause) : (takeAnswer s).st = s.st := rfl
@[simp] theorem takeAnswer_cmdQ (s : State Cause) : (takeAnswer s).cmdQ = s.cmdQ := rfl
@[simp] theorem takeAnswer_vaQ (s : State Cause) : (takeAnswer s).vaQ = s.vaQ := rfl
@[simp] theorem takeAnswer_baseQ (s : State Cause) : (takeAnswer s).baseQ = s.baseQ := rfl
@[simp] theorem takeAnswer_lvlQ (s : State Cause) : (takeAnswer s).lvlQ = s.lvlQ := rfl
@[simp] theorem takeAnswer_eaQ (s : State Cause) : (takeAnswer s).eaQ = s.eaQ := rfl
@[simp] theorem takeAnswer_rspQ (s : State Cause) : (takeAnswer s).rspQ = s.rspQ := rfl
@[simp] theorem takeAnswer_cmd (s : State Cause) : (takeAnswer s).cmd = s.cmd := rfl
@[simp] theorem takeAnswer_rdRsp (s : State Cause) : (takeAnswer s).rdRsp = none := rfl
@[simp] theorem takeAnswer_rdReqLog (s : State Cause) : (takeAnswer s).rdReqLog = s.rdReqLog := rfl
@[simp] theorem takeAnswer_rspLog (s : State Cause) : (takeAnswer s).rspLog = s.rspLog := rfl
@[simp] theorem takeAnswer_env (s : State Cause) : (takeAnswer s).env = s.env := rfl
@[simp] theorem takeAnswer_hostBusy (s : State Cause) : (takeAnswer s).hostBusy = s.hostBusy := rfl
@[simp] theorem takeAnswer_memBusy (s : State Cause) : (takeAnswer s).memBusy = s.memBusy := rfl
@[simp] theorem takeAnswer_mem (s : State Cause) : (takeAnswer s).mem = s.mem := rfl
@[simp] theorem takeAnswer_failing (s : State Cause) : (takeAnswer s).failing = s.failing := rfl
@[simp] theorem takeAnswer_byteOrder (s : State Cause) : (takeAnswer s).byteOrder = s.byteOrder := rfl
@[simp] theorem takeAnswer_freeIdx (s : State Cause) : (takeAnswer s).freeIdx = s.freeIdx := rfl

/-! ### deliverResponse -/

@[simp] theorem deliverResponse_st (s : State Cause) : (deliverResponse s).st = .idle := rfl
@[simp] theorem deliverResponse_cmdQ (s : State Cause) : (deliverResponse s).cmdQ = s.cmdQ := rfl
@[simp] theorem deliverResponse_vaQ (s : State Cause) : (deliverResponse s).vaQ = s.vaQ := rfl
@[simp] theorem deliverResponse_baseQ (s : State Cause) : (deliverResponse s).baseQ = s.baseQ := rfl
@[simp] theorem deliverResponse_lvlQ (s : State Cause) : (deliverResponse s).lvlQ = s.lvlQ := rfl
@[simp] theorem deliverResponse_eaQ (s : State Cause) : (deliverResponse s).eaQ = s.eaQ := rfl
@[simp] theorem deliverResponse_rspQ (s : State Cause) : (deliverResponse s).rspQ = none := rfl
@[simp] theorem deliverResponse_cmd (s : State Cause) : (deliverResponse s).cmd = s.cmd := rfl
@[simp] theorem deliverResponse_rdRsp (s : State Cause) : (deliverResponse s).rdRsp = s.rdRsp := rfl
@[simp] theorem deliverResponse_rdReqLog (s : State Cause) : (deliverResponse s).rdReqLog = s.rdReqLog := rfl
@[simp] theorem deliverResponse_rspLog (s : State Cause) : (deliverResponse s).rspLog = s.rspLog ++ s.rspQ.toList := rfl
@[simp] theorem deliverResponse_env (s : State Cause) : (deliverResponse s).env = s.env := rfl
@[simp] theorem deliverResponse_hostBusy (s : State Cause) : (deliverResponse s).hostBusy = s.hostBusy := rfl
@[simp] theorem deliverResponse_memBusy (s : State Cause) : (deliverResponse s).memBusy = s.memBusy := rfl
@[simp] theorem deliverResponse_mem (s : State Cause) : (deliverResponse s).mem = s.mem := rfl
@[simp] theorem deliverResponse_failing (s : State Cause) : (deliverResponse s).failing = s.failing := rfl
@[simp] theorem deliverResponse_byteOrder (s : State Cause) : (deliverResponse s).byteOrder = s.byteOrder := rfl
@[simp] theorem deliverResponse_freeIdx (s : State Cause) : (deliverResponse s).freeIdx = s.freeIdx := rfl

/-! ### respond -/

@[simp] theorem respond_st (r : Response Cause) (s : State Cause) : (respond r s).st = .resp := rfl
@[simp] theorem respond_cmdQ (r : Response Cause) (s : State Cause) : (respond r s).cmdQ = s.cmdQ := rfl
@[simp] theorem respond_vaQ (r : Response Cause) (s : State Cause) : (respond r s).vaQ = s.vaQ := rfl
@[simp] theorem respond_baseQ (r : Response Cause) (s : State Cause) : (respond r s).baseQ = s.baseQ := rfl
@[simp] theorem respond_lvlQ (r : Response Cause) (s : State Cause) : (respond r s).lvlQ = s.lvlQ := rfl
@[simp] theorem respond_eaQ (r : Response Cause) (s : State Cause) : (respond r s).eaQ = s.eaQ := rfl
@[simp] theorem respond_rspQ (r : Response Cause) (s : State Cause) : (respond r s).rspQ = some r := rfl
@[simp] theorem respond_cmd (r : Response Cause) (s : State Cause) : (respond r s).cmd = s.cmd := rfl
@[simp] theorem respond_rdRsp (r : Response Cause) (s : State Cause) : (respond r s).rdRsp = s.rdRsp := rfl
@[simp] theorem respond_rdReqLog (r : Response Cause) (s : State Cause) : (respond r s).rdReqLog = s.rdReqLog := rfl
@[simp] theorem respond_rspLog (r : Response Cause) (s : State Cause) : (respond r s).rspLog = s.rspLog := rfl
@[simp] theorem respond_env (r : Response Cause) (s : State Cause) : (respond r s).env = s.env := rfl
@[simp] theorem respond_hostBusy (r : Response Cause) (s : State Cause) : (respond r s).hostBusy = s.hostBusy := rfl
@[simp] theorem respond_memBusy (r : Response Cause) (s : State Cause) : (respond r s).memBusy = s.memBusy := rfl
@[simp] theorem respond_mem (r : Response Cause) (s : State Cause) : (respond r s).mem = s.mem := rfl
@[simp] theorem respond_failing (r : Response Cause) (s : State Cause) : (respond r s).failing = s.failing := rfl
@[simp] theorem respond_byteOrder (r : Response Cause) (s : State Cause) : (respond r s).byteOrder = s.byteOrder := rfl
@[simp] theorem respond_freeIdx (r : Response Cause) (s : State Cause) : (respond r s).freeIdx = s.freeIdx := rfl

/-! ### enterLevel -/

@[simp] theorem enterLevel_st (L : Level) (base : Word) (s : State Cause) : (enterLevel L base s).st = .walk := rfl
@[simp] theorem enterLevel_cmdQ (L : Level) (base : Word) (s : State Cause) : (enterLevel L base s).cmdQ = s.cmdQ := rfl
@[simp] theorem enterLevel_vaQ (L : Level) (base : Word) (s : State Cause) : (enterLevel L base s).vaQ = s.vaQ := rfl
@[simp] theorem enterLevel_baseQ (L : Level) (base : Word) (s : State Cause) : (enterLevel L base s).baseQ = base := rfl
@[simp] theorem enterLevel_lvlQ (L : Level) (base : Word) (s : State Cause) : (enterLevel L base s).lvlQ = L := rfl
@[simp] theorem enterLevel_eaQ (L : Level) (base : Word) (s : State Cause) : (enterLevel L base s).eaQ = entryAddress base (idx L s.vaQ) := rfl
@[simp] theorem enterLevel_rspQ (L : Level) (base : Word) (s : State Cause) : (enterLevel L base s).rspQ = s.rspQ := rfl
@[simp] theorem enterLevel_cmd (L : Level) (base : Word) (s : State Cause) : (enterLevel L base s).cmd = s.cmd := rfl
@[simp] theorem enterLevel_rdRsp (L : Level) (base : Word) (s : State Cause) : (enterLevel L base s).rdRsp = s.rdRsp := rfl
@[simp] theorem enterLevel_rdReqLog (L : Level) (base : Word) (s : State Cause) : (enterLevel L base s).rdReqLog = s.rdReqLog := rfl
@[simp] theorem enterLevel_rspLog (L : Level) (base : Word) (s : State Cause) : (enterLevel L base s).rspLog = s.rspLog := rfl
@[simp] theorem enterLevel_env (L : Level) (base : Word) (s : State Cause) : (enterLevel L base s).env = s.env := rfl
@[simp] theorem enterLevel_hostBusy (L : Level) (base : Word) (s : State Cause) : (enterLevel L base s).hostBusy = s.hostBusy := rfl
@[simp] theorem enterLevel_memBusy (L : Level) (base : Word) (s : State Cause) : (enterLevel L base s).memBusy = s.memBusy := rfl
@[simp] theorem enterLevel_mem (L : Level) (base : Word) (s : State Cause) : (enterLevel L base s).mem = s.mem := rfl
@[simp] theorem enterLevel_failing (L : Level) (base : Word) (s : State Cause) : (enterLevel L base s).failing = s.failing := rfl
@[simp] theorem enterLevel_byteOrder (L : Level) (base : Word) (s : State Cause) : (enterLevel L base s).byteOrder = s.byteOrder := rfl
@[simp] theorem enterLevel_freeIdx (L : Level) (base : Word) (s : State Cause) : (enterLevel L base s).freeIdx = s.freeIdx := rfl

/-! ### startWalk -/

@[simp] theorem startWalk_st (root va : Word) (s : State Cause) : (startWalk root va s).st = .walk := rfl
@[simp] theorem startWalk_cmdQ (root va : Word) (s : State Cause) : (startWalk root va s).cmdQ = s.cmdQ := rfl
@[simp] theorem startWalk_vaQ (root va : Word) (s : State Cause) : (startWalk root va s).vaQ = va := rfl
@[simp] theorem startWalk_baseQ (root va : Word) (s : State Cause) : (startWalk root va s).baseQ = root &&& cr3TableBaseMask := rfl
@[simp] theorem startWalk_lvlQ (root va : Word) (s : State Cause) : (startWalk root va s).lvlQ = .pml4 := rfl
@[simp] theorem startWalk_eaQ (root va : Word) (s : State Cause) : (startWalk root va s).eaQ = entryAddress (root &&& cr3TableBaseMask) (idx .pml4 va) := rfl
@[simp] theorem startWalk_rspQ (root va : Word) (s : State Cause) : (startWalk root va s).rspQ = s.rspQ := rfl
@[simp] theorem startWalk_cmd (root va : Word) (s : State Cause) : (startWalk root va s).cmd = s.cmd := rfl
@[simp] theorem startWalk_rdRsp (root va : Word) (s : State Cause) : (startWalk root va s).rdRsp = s.rdRsp := rfl
@[simp] theorem startWalk_rdReqLog (root va : Word) (s : State Cause) : (startWalk root va s).rdReqLog = s.rdReqLog := rfl
@[simp] theorem startWalk_rspLog (root va : Word) (s : State Cause) : (startWalk root va s).rspLog = s.rspLog := rfl
@[simp] theorem startWalk_env (root va : Word) (s : State Cause) : (startWalk root va s).env = s.env := rfl
@[simp] theorem startWalk_hostBusy (root va : Word) (s : State Cause) : (startWalk root va s).hostBusy = s.hostBusy := rfl
@[simp] theorem startWalk_memBusy (root va : Word) (s : State Cause) : (startWalk root va s).memBusy = s.memBusy := rfl
@[simp] theorem startWalk_mem (root va : Word) (s : State Cause) : (startWalk root va s).mem = s.mem := rfl
@[simp] theorem startWalk_failing (root va : Word) (s : State Cause) : (startWalk root va s).failing = s.failing := rfl
@[simp] theorem startWalk_byteOrder (root va : Word) (s : State Cause) : (startWalk root va s).byteOrder = s.byteOrder := rfl
@[simp] theorem startWalk_freeIdx (root va : Word) (s : State Cause) : (startWalk root va s).freeIdx = s.freeIdx := rfl

/-! ### resetWalker -/

@[simp] theorem resetWalker_st (s : State Cause) : (resetWalker s).st = .idle := rfl
@[simp] theorem resetWalker_rspQ (s : State Cause) : (resetWalker s).rspQ = none := rfl
@[simp] theorem resetWalker_cmd (s : State Cause) : (resetWalker s).cmd = s.cmd := rfl
@[simp] theorem resetWalker_rdRsp (s : State Cause) : (resetWalker s).rdRsp = none := rfl
@[simp] theorem resetWalker_rdReqLog (s : State Cause) : (resetWalker s).rdReqLog = s.rdReqLog := rfl
@[simp] theorem resetWalker_rspLog (s : State Cause) : (resetWalker s).rspLog = s.rspLog := rfl
@[simp] theorem resetWalker_env (s : State Cause) : (resetWalker s).env = s.env := rfl
@[simp] theorem resetWalker_hostBusy (s : State Cause) : (resetWalker s).hostBusy = s.hostBusy := rfl
@[simp] theorem resetWalker_memBusy (s : State Cause) : (resetWalker s).memBusy = s.memBusy := rfl
@[simp] theorem resetWalker_mem (s : State Cause) : (resetWalker s).mem = s.mem := rfl
@[simp] theorem resetWalker_failing (s : State Cause) : (resetWalker s).failing = s.failing := rfl
@[simp] theorem resetWalker_byteOrder (s : State Cause) : (resetWalker s).byteOrder = s.byteOrder := rfl
@[simp] theorem resetWalker_freeIdx (s : State Cause) : (resetWalker s).freeIdx = s.freeIdx + 1 := rfl

end Sys2Proof.Machine
end

