-- ==== Sys2Proof/Laws/Ops.lean ====
section
/-! SUPPORT. What the shared operations can do, said once: the guards of the meanings, the outside moves, the walker's
next step. Proofs cite these and do not unfold the operations. -/

namespace Sys2Proof.Machine

variable {Cause : Type}

/-! ### The guards -/

theorem onCommand_idle {s : State Cause} (effect : State Cause → State Cause) (h : s.st = .idle) : onCommand s effect = .next (effect s) := by
  simp [onCommand, h]

theorem onCommand_elsewhere {s : State Cause} (effect : State Cause → State Cause) (h : s.st ≠ .idle) : onCommand s effect = .next s := by
  simp [onCommand, h]

theorem onEntry_taken {s : State Cause} {L : Level} (effect : State Cause → State Cause) (h : s.st = .rdWait) (hL : s.lvlQ = L) :
    onEntry L s effect = .next (effect s) := by
  simp [onEntry, h, hL]

theorem onEntry_elsewhere {s : State Cause} {L : Level} (effect : State Cause → State Cause) (h : s.st ≠ .rdWait ∨ s.lvlQ ≠ L) :
    onEntry L s effect = .next s := by
  simp only [onEntry]
  rw [if_neg (by tauto)]

/-! ### What an instruction can do -/

/-- The response of a pure command, if the instruction is one. -/
def pureResponse : Instr → Option Response
  | .decodeEntry L e => some (decodedResponse L (decodeFields L e))
  | .getPml4Index va => some (valueResponse (idx .pml4 va))
  | .getPdpteIndex va => some (valueResponse (idx .pdpte va))
  | .getPdeIndex va => some (valueResponse (idx .pde va))
  | .getPteIndex va => some (valueResponse (idx .pte va))
  | .getTableBase e => some (valueResponse (e &&& tableBaseMask))
  | .computeEntryAddress b i => some (valueResponse (entryAddress b i))
  | .translate _ _ | .pml4eNp _ | .pml4eTable _ | .pdpteNp _ | .pdpteTable _ | .pdpte1g _ | .pdeNp _ | .pdeTable _
  | .pde2m _ | .pteNp _ | .pte4k _ => none

/-- Every effect an instruction can have on a state: none (its word is not taken there), a pure response, the start of a
walk, a walk fault, the next level, a resolved address. -/
inductive Effect (i : Instr) (s : State) : State → Prop where
  | notTaken : Effect i s s
  | answered (r : Response) (hst : s.st = .idle) (hr : pureResponse i = some r) : Effect i s (respond r s)
  | started (root va : Word) (hst : s.st = .idle) (hi : i = .translate root va) : Effect i s (startWalk root va s)
  | notPresent (L : Level) (hst : s.st = .rdWait) (hL : s.lvlQ = L) :
      Effect i s (respond (faultResponse L .notPresent none) s)
  | wentOn (L next : Level) (e : Word) (hst : s.st = .rdWait) (hL : s.lvlQ = L)
      (hnext : next.code = L.code + 1) (hpte : L ≠ .pte) : Effect i s (enterLevel next (e &&& tableBaseMask) s)
  | resolved (L : Level) (size : PageSize) (mask e : Word) (hst : s.st = .rdWait) (hL : s.lvlQ = L)
      (hsize : leafSize L = some size) (hmask : addrMask L true = some mask) :
      Effect i s (respond (resolvedResponse (leafAddress mask size e s.vaQ) size L (flagsUnder mask e)) s)

/-- Every instruction answers a next state, and its effect is one of `Effect`. -/
theorem exec_effect (i : Instr) (s : State) : ∃ t, exec i s = .next t ∧ Effect i s t := by
  have command : ∀ (effect : State → State), (s.st = .idle → Effect i s (effect s)) →
      ∃ t, onCommand s effect = .next t ∧ Effect i s t := by
    intro effect h
    by_cases hs : s.st = .idle
    · exact ⟨_, onCommand_idle effect hs, h hs⟩
    · exact ⟨_, onCommand_elsewhere effect hs, .notTaken⟩
  have entry : ∀ (L : Level) (effect : State → State), (s.st = .rdWait → s.lvlQ = L → Effect i s (effect s)) →
      ∃ t, onEntry L s effect = .next t ∧ Effect i s t := by
    intro L effect h
    by_cases hs : s.st = .rdWait ∧ s.lvlQ = L
    · exact ⟨_, onEntry_taken effect hs.1 hs.2, h hs.1 hs.2⟩
    · exact ⟨_, onEntry_elsewhere effect (by tauto), .notTaken⟩
  cases i with
  | translate root va => exact command _ fun h => .started root va h rfl
  | decodeEntry L e => exact command _ fun h => .answered _ h rfl
  | getPml4Index va => exact command _ fun h => .answered _ h rfl
  | getPdpteIndex va => exact command _ fun h => .answered _ h rfl
  | getPdeIndex va => exact command _ fun h => .answered _ h rfl
  | getPteIndex va => exact command _ fun h => .answered _ h rfl
  | getTableBase e => exact command _ fun h => .answered _ h rfl
  | computeEntryAddress b i => exact command _ fun h => .answered _ h rfl
  | pml4eNp e => exact entry .pml4 _ fun h hL => .notPresent _ h hL
  | pml4eTable e => exact entry .pml4 _ fun h hL => .wentOn _ _ e h hL (by decide) (by decide)
  | pdpteNp e => exact entry .pdpte _ fun h hL => .notPresent _ h hL
  | pdpteTable e => exact entry .pdpte _ fun h hL => .wentOn _ _ e h hL (by decide) (by decide)
  | pdpte1g e => exact entry .pdpte _ fun h hL => .resolved _ _ _ e h hL rfl rfl
  | pdeNp e => exact entry .pde _ fun h hL => .notPresent _ h hL
  | pdeTable e => exact entry .pde _ fun h hL => .wentOn _ _ e h hL (by decide) (by decide)
  | pde2m e => exact entry .pde _ fun h hL => .resolved _ _ _ e h hL rfl rfl
  | pteNp e => exact entry .pte _ fun h hL => .notPresent _ h hL
  | pte4k e => exact entry .pte _ fun h hL => .resolved _ _ _ e h hL rfl rfl

/-- The effect of an instruction that answered `t`. -/
theorem effect_of_exec {i : Instr} {s t : State} (h : exec i s = .next t) : Effect i s t := by
  obtain ⟨u, hu, he⟩ := exec_effect i s
  rw [h] at hu
  cases hu
  exact he

/-! ### The outside moves -/

/-- What an outside move does not touch unless it is a reset: the walker's registers and the record of its ports. -/
theorem applyMove_registers {m : EnvMove Cause} {s t : State Cause} (h : applyMove m s = .next t) (hm : m ≠ .reset) :
    t.st = s.st ∧ t.cmdQ = s.cmdQ ∧ t.vaQ = s.vaQ ∧ t.baseQ = s.baseQ ∧ t.lvlQ = s.lvlQ ∧ t.eaQ = s.eaQ ∧
      t.rspQ = s.rspQ ∧ t.rdReqLog = s.rdReqLog ∧ t.rspLog = s.rspLog ∧ t.freeIdx = s.freeIdx := by
  rcases m with w | b | b | r | ⟨a, b⟩ | ⟨a, _ | c⟩ | _ <;> simp only [applyMove] at h
  case reset => exact absurd rfl hm
  case answer =>
    split at h <;> cases h
    simp
  all_goals cases h; simp

/-- What no outside move touches. -/
theorem applyMove_frame {m : EnvMove Cause} {s t : State Cause} (h : applyMove m s = .next t) :
    t.env = s.env ∧ t.byteOrder = s.byteOrder ∧ t.rdReqLog = s.rdReqLog ∧ t.rspLog = s.rspLog := by
  rcases m with w | b | b | r | ⟨a, b⟩ | ⟨a, _ | c⟩ | _ <;> simp only [applyMove] at h
  case answer =>
    split at h <;> cases h
    simp
  all_goals cases h; simp

/-- An outside move never faults; it is refused only as an answer nobody asked for. -/
theorem applyMove_outcome (m : EnvMove Cause) (s : State Cause) :
    (∃ t, applyMove m s = .next t) ∨ (applyMove m s = .refused .unsolicitedReadResponse ∧ ∃ r, m = .answer r) := by
  rcases m with w | b | b | r | ⟨a, b⟩ | ⟨a, _ | c⟩ | _ <;> simp only [applyMove]
  case answer =>
    split
    · exact .inl ⟨_, rfl⟩
    · exact .inr ⟨rfl, r, rfl⟩
  all_goals exact .inl ⟨_, rfl⟩

/-- An induction over a batch: what every move of it keeps, the batch keeps. -/
theorem applyBatch_keeps {P : State Cause → Prop} {batch : List (EnvMove Cause)} {s t : State Cause} (h : applyBatch batch s = .next t)
    (hs : P s) (hP : ∀ m ∈ batch, ∀ u v, P u → applyMove m u = .next v → P v) : P t := by
  induction batch generalizing s with
  | nil => cases h; exact hs
  | cons m rest ih =>
    simp only [applyBatch] at h
    split at h
    · next u hu =>
      exact ih h (hP m List.mem_cons_self _ _ hs hu) fun m' hm' => hP m' (List.mem_cons_of_mem _ hm')
    · cases h
    · cases h

theorem envTick_nil {s : State Cause} (h : s.env = []) : envTick s = .next s := by simp [envTick, h]

/-- With no batch left a step is the walker's own, however instructions run. -/
theorem stepBy_of_env_nil {ex : Instr → State Cause → Host.Outcome (State Cause) Fault Refusal} {s : State Cause}
    (h : s.env = []) : stepBy ex s = walkerStepBy ex s := by
  simp [stepBy, envTick_nil h]

/-- With no batch left a step is the walker's own. -/
theorem step_of_env_nil {s : State} (h : s.env = []) : step s = walkerStep s := stepBy_of_env_nil h

/-! ### The walker's next step -/

theorem nextAction_idle_wait {s : State Cause} (h : s.st = .idle) (hc : s.cmd = []) : nextAction s = .move s := by
  simp [nextAction, h, hc]

theorem nextAction_idle_take {s : State Cause} {w : CmdWord} {rest : List CmdWord} (h : s.st = .idle)
    (hc : s.cmd = w :: rest) : nextAction s = .run (.cmd w) (takeCommand w rest s) := by
  simp [nextAction, h, hc]

theorem nextAction_walk_wait {s : State Cause} (h : s.st = .walk) (hb : s.memBusy = true) : nextAction s = .move s := by
  simp [nextAction, h, hb]

theorem nextAction_walk_issue {s : State Cause} (h : s.st = .walk) (hb : s.memBusy = false) :
    nextAction s = .move (issueRead s) := by
  simp [nextAction, h, hb]

theorem nextAction_rdWait_wait {s : State Cause} (h : s.st = .rdWait) (ha : pendingAnswer s = none) :
    nextAction s = .move s := by
  simp [nextAction, h, ha]

theorem nextAction_rdWait_entry {s : State Cause} {e : Word} (h : s.st = .rdWait) (ha : pendingAnswer s = some (.ok e)) :
    nextAction s = .run (.entry s.lvlQ e) (takeAnswer s) := by
  simp [nextAction, h, ha]

theorem nextAction_rdWait_error {s : State Cause} {c : Cause} (h : s.st = .rdWait)
    (ha : pendingAnswer s = some (.err c)) :
    nextAction s = .move (respond (faultResponse s.lvlQ .readError (some c)) (takeAnswer s)) := by
  simp [nextAction, h, ha]

theorem nextAction_resp_wait {s : State Cause} (h : s.st = .resp) (hb : s.hostBusy = true) : nextAction s = .move s := by
  simp [nextAction, h, hb]

theorem nextAction_resp_deliver {s : State Cause} (h : s.st = .resp) (hb : s.hostBusy = false) :
    nextAction s = .move (deliverResponse s) := by
  simp [nextAction, h, hb]

theorem walkerStepBy_move {ex : Instr → State Cause → Host.Outcome (State Cause) Fault Refusal} {s t : State Cause}
    (h : nextAction s = .move t) : walkerStepBy ex s = .next t := by
  simp [walkerStepBy, h]

theorem walkerStepBy_run {ex : Instr → State Cause → Host.Outcome (State Cause) Fault Refusal} {s t : State Cause}
    {p : PortWord} (h : nextAction s = .run p t) : walkerStepBy ex s = ex (decode p) t := by
  simp [walkerStepBy, h]

theorem walkerStep_move {s t : State} (h : nextAction s = .move t) : walkerStep s = .next t := walkerStepBy_move h

theorem walkerStep_run {s t : State} {p : PortWord} (h : nextAction s = .run p t) : walkerStep s = exec (decode p) t :=
  walkerStepBy_run h

/-- Every way the walker's own step can go: it waits, takes a command, issues a read, consumes an entry or an error,
delivers a response. -/
inductive WalkerMove (s : State) : State → Prop where
  | waits (hst : (s.st = .idle ∧ s.cmd = []) ∨ (s.st = .walk ∧ s.memBusy = true) ∨
      (s.st = .rdWait ∧ pendingAnswer s = none) ∨ (s.st = .resp ∧ s.hostBusy = true)) : WalkerMove s s
  | takes (w : CmdWord) (rest : List CmdWord) (t : State) (hst : s.st = .idle) (hcmd : s.cmd = w :: rest)
      (hexec : exec (decode (.cmd w)) (takeCommand w rest s) = .next t) : WalkerMove s t
  | issues (hst : s.st = .walk) (hb : s.memBusy = false) : WalkerMove s (issueRead s)
  | consumes (e : Word) (t : State) (hst : s.st = .rdWait) (ha : pendingAnswer s = some (.ok e))
      (hexec : exec (decode (.entry s.lvlQ e)) (takeAnswer s) = .next t) : WalkerMove s t
  | fails (c : ReadCause) (hst : s.st = .rdWait) (ha : pendingAnswer s = some (.err c)) :
      WalkerMove s (respond (faultResponse s.lvlQ .readError (some c)) (takeAnswer s))
  | delivers (hst : s.st = .resp) (hb : s.hostBusy = false) : WalkerMove s (deliverResponse s)

/-- The walker's own step always answers a next state, in one of these ways. -/
theorem walkerStep_move_exists (s : State) : ∃ t, walkerStep s = .next t ∧ WalkerMove s t := by
  cases hst : s.st with
  | idle =>
    cases hc : s.cmd with
    | nil => exact ⟨s, walkerStep_move (nextAction_idle_wait hst hc), .waits (.inl ⟨hst, hc⟩)⟩
    | cons w rest =>
      obtain ⟨t, ht, -⟩ := exec_effect (decode (.cmd w)) (takeCommand w rest s)
      exact ⟨t, (walkerStep_run (nextAction_idle_take hst hc)).trans ht, .takes w rest t hst hc ht⟩
  | walk =>
    cases hb : s.memBusy with
    | true => exact ⟨s, walkerStep_move (nextAction_walk_wait hst hb), .waits (.inr (.inl ⟨hst, hb⟩))⟩
    | false => exact ⟨_, walkerStep_move (nextAction_walk_issue hst hb), .issues hst hb⟩
  | rdWait =>
    rcases ha : pendingAnswer s with _ | e | c
    · exact ⟨s, walkerStep_move (nextAction_rdWait_wait hst ha), .waits (.inr (.inr (.inl ⟨hst, ha⟩)))⟩
    · obtain ⟨t, ht, -⟩ := exec_effect (decode (.entry s.lvlQ e)) (takeAnswer s)
      exact ⟨t, (walkerStep_run (nextAction_rdWait_entry hst ha)).trans ht, .consumes e t hst ha ht⟩
    · exact ⟨_, walkerStep_move (nextAction_rdWait_error hst ha), .fails c hst ha⟩
  | resp =>
    cases hb : s.hostBusy with
    | true => exact ⟨s, walkerStep_move (nextAction_resp_wait hst hb), .waits (.inr (.inr (.inr ⟨hst, hb⟩)))⟩
    | false => exact ⟨_, walkerStep_move (nextAction_resp_deliver hst hb), .delivers hst hb⟩

/-- The way the walker's own step went. -/
theorem move_of_walkerStep {s t : State} (h : walkerStep s = .next t) : WalkerMove s t := by
  obtain ⟨u, hu, hm⟩ := walkerStep_move_exists s
  rw [h] at hu
  cases hu
  exact hm

/-- A step that answers is the outside agents' batch and then the walker's own step. -/
theorem step_split {s t : State} (h : step s = .next t) : ∃ u, envTick s = .next u ∧ walkerStep u = .next t := by
  simp only [step, stepBy] at h
  split at h
  · next u hu => exact ⟨u, hu, h⟩
  · cases h
  · cases h

/-- What every outside move of the batch keeps, and the walker's own step keeps, a step keeps (the batch itself is taken
off first). -/
theorem step_keeps {P : State → Prop} {s t : State} (h : step s = .next t) (hs : P s)
    (henv : ∀ u rest, P u → P { u with env := rest }) (hmove : ∀ m u v, P u → applyMove m u = .next v → P v)
    (hstep : ∀ u v, P u → WalkerMove u v → P v) : P t := by
  obtain ⟨u, hu, hw⟩ := step_split h
  refine hstep u t ?_ (move_of_walkerStep hw)
  unfold envTick at hu
  split at hu
  · cases hu; exact hs
  · exact applyBatch_keeps hu (henv s _ hs) fun m _ => hmove m

end Sys2Proof.Machine
end

