-- ==== Sys2Proof/Laws/Exec.lean ====
section
/-! SUPPORT. What the instruction of a word does where its word is taken, said once, and with it every transition of the
walker. -/

namespace Sys2Proof.Machine

/-! ### The words of the two ports -/

/-- A command word taken in IDLE starts a walk if its op is 0 and is answered if it is not. -/
theorem exec_command_idle {s : State} (w : CmdWord) (h : s.st = .idle) :
    (cmdOp w = 0 ∧ exec (decode (.cmd w)) s = .next (startWalk (cmdOpa w) (cmdOpb w) s)) ∨
      (cmdOp w ≠ 0 ∧ ∃ r, pureResponse (decode (.cmd w)) = some r ∧
        exec (decode (.cmd w)) s = .next (respond r s)) := by
  simp only [decode]
  rcases cmdOp_cases w with hw | hw | hw | hw | hw | hw | hw | hw
  · rw [decodeCmd_translate hw]; exact .inl ⟨hw, onCommand_idle _ h⟩
  · rw [decodeCmd_decodeEntry hw]; exact .inr ⟨by rw [hw]; decide, _, rfl, onCommand_idle _ h⟩
  · rw [decodeCmd_getPml4Index hw]; exact .inr ⟨by rw [hw]; decide, _, rfl, onCommand_idle _ h⟩
  · rw [decodeCmd_getPdpteIndex hw]; exact .inr ⟨by rw [hw]; decide, _, rfl, onCommand_idle _ h⟩
  · rw [decodeCmd_getPdeIndex hw]; exact .inr ⟨by rw [hw]; decide, _, rfl, onCommand_idle _ h⟩
  · rw [decodeCmd_getPteIndex hw]; exact .inr ⟨by rw [hw]; decide, _, rfl, onCommand_idle _ h⟩
  · rw [decodeCmd_getTableBase hw]; exact .inr ⟨by rw [hw]; decide, _, rfl, onCommand_idle _ h⟩
  · rw [decodeCmd_computeEntryAddress hw]; exact .inr ⟨by rw [hw]; decide, _, rfl, onCommand_idle _ h⟩

/-- An entry taken in RD_WAIT at its level, not present: a fault. -/
theorem exec_entry_notPresent {s : State} {L : Level} {e : Word} (h : s.st = .rdWait) (hL : s.lvlQ = L)
    (h0 : e.getLsbD 0 = false) :
    exec (decode (.entry L e)) s = .next (respond (faultResponse L .notPresent none) s) := by
  cases L <;> simp only [decode, decodeEntryAt, h0, Bool.false_eq_true, if_false] <;> exact onEntry_taken _ h hL

/-- The level after a level; the PTE level has none. -/
def nextLevel : Level → Level
  | .pml4 => .pdpte
  | .pdpte => .pde
  | .pde => .pte
  | .pte => .pte

/-- A present table pointer: on to the next level. -/
theorem exec_entry_table {s : State} {L : Level} {e : Word} (h : s.st = .rdWait) (hL : s.lvlQ = L)
    (h0 : e.getLsbD 0 = true) (hleaf : isLeafAt L e = false) :
    exec (decode (.entry L e)) s = .next (enterLevel (nextLevel L) (e &&& tableBaseMask) s) := by
  cases L
  · simp only [decode, decodeEntryAt, h0, if_true]; exact onEntry_taken _ h hL
  · simp only [isLeafAt, pdptePs] at hleaf
    simp only [decode, decodeEntryAt, h0, hleaf, if_true, Bool.false_eq_true, if_false]; exact onEntry_taken _ h hL
  · simp only [isLeafAt, pdePs] at hleaf
    simp only [decode, decodeEntryAt, h0, hleaf, if_true, Bool.false_eq_true, if_false]; exact onEntry_taken _ h hL
  · cases hleaf

/-- A present leaf: a RESOLVED response. -/
theorem exec_entry_leaf {s : State} {L : Level} {e : Word} (h : s.st = .rdWait) (hL : s.lvlQ = L)
    (h0 : e.getLsbD 0 = true) (hleaf : isLeafAt L e = true) :
    ∃ size mask, leafSize L = some size ∧ addrMask L true = some mask ∧
      exec (decode (.entry L e)) s =
        .next (respond (resolvedResponse (leafAddress mask size e s.vaQ) size L (flagsUnder mask e)) s) := by
  cases L
  · cases hleaf
  · simp only [isLeafAt, pdptePs] at hleaf
    refine ⟨_, _, rfl, rfl, ?_⟩
    simp only [decode, decodeEntryAt, h0, hleaf, if_true]; exact onEntry_taken _ h hL
  · simp only [isLeafAt, pdePs] at hleaf
    refine ⟨_, _, rfl, rfl, ?_⟩
    simp only [decode, decodeEntryAt, h0, hleaf, if_true]; exact onEntry_taken _ h hL
  · refine ⟨_, _, rfl, rfl, ?_⟩
    simp only [decode, decodeEntryAt, h0, if_true]; exact onEntry_taken _ h hL

/-- An entry taken in RD_WAIT at its level: one of the three. -/
theorem exec_entry_cases {s : State} (L : Level) (e : Word) (h : s.st = .rdWait) (hL : s.lvlQ = L) :
    (e.getLsbD 0 = false ∧ exec (decode (.entry L e)) s = .next (respond (faultResponse L .notPresent none) s)) ∨
      (e.getLsbD 0 = true ∧ isLeafAt L e = false ∧
        exec (decode (.entry L e)) s = .next (enterLevel (nextLevel L) (e &&& tableBaseMask) s)) ∨
      (e.getLsbD 0 = true ∧ isLeafAt L e = true ∧ ∃ size mask, leafSize L = some size ∧ addrMask L true = some mask ∧
        exec (decode (.entry L e)) s =
          .next (respond (resolvedResponse (leafAddress mask size e s.vaQ) size L (flagsUnder mask e)) s)) := by
  rcases h0 : e.getLsbD 0
  · exact .inl ⟨rfl, exec_entry_notPresent h hL h0⟩
  · rcases hl : isLeafAt L e
    · exact .inr (.inl ⟨rfl, rfl, exec_entry_table h hL h0 hl⟩)
    · exact .inr (.inr ⟨rfl, rfl, exec_entry_leaf h hL h0 hl⟩)

/-! ### The transitions (10_state.md R17) -/

/-- Every way the walker's own step can go, with the state it gives. -/
inductive Transition (s : State) : State → Prop where
  | waits (h : (s.st = .idle ∧ s.cmd = []) ∨ (s.st = .walk ∧ s.memBusy = true) ∨
      (s.st = .rdWait ∧ pendingAnswer s = none) ∨ (s.st = .resp ∧ s.hostBusy = true)) : Transition s s
  | starts (w : CmdWord) (rest : List CmdWord) (hst : s.st = .idle) (hcmd : s.cmd = w :: rest) (hop : cmdOp w = 0) :
      Transition s (startWalk (cmdOpa w) (cmdOpb w) (takeCommand w rest s))
  | answers (w : CmdWord) (rest : List CmdWord) (r : Response) (hst : s.st = .idle) (hcmd : s.cmd = w :: rest)
      (hop : cmdOp w ≠ 0) (hr : pureResponse (decode (.cmd w)) = some r) :
      Transition s (respond r (takeCommand w rest s))
  | issues (hst : s.st = .walk) (hb : s.memBusy = false) : Transition s (issueRead s)
  | notPresent (e : Word) (hst : s.st = .rdWait) (ha : pendingAnswer s = some (.ok e)) (h0 : e.getLsbD 0 = false) :
      Transition s (respond (faultResponse s.lvlQ .notPresent none) (takeAnswer s))
  | goesOn (e : Word) (hst : s.st = .rdWait) (ha : pendingAnswer s = some (.ok e)) (h0 : e.getLsbD 0 = true)
      (hleaf : isLeafAt s.lvlQ e = false) :
      Transition s (enterLevel (nextLevel s.lvlQ) (e &&& tableBaseMask) (takeAnswer s))
  | resolves (e : Word) (size : PageSize) (mask : Word) (hst : s.st = .rdWait) (ha : pendingAnswer s = some (.ok e))
      (h0 : e.getLsbD 0 = true) (hleaf : isLeafAt s.lvlQ e = true) (hsize : leafSize s.lvlQ = some size)
      (hmask : addrMask s.lvlQ true = some mask) :
      Transition s
        (respond (resolvedResponse (leafAddress mask size e s.vaQ) size s.lvlQ (flagsUnder mask e)) (takeAnswer s))
  | fails (c : ReadCause) (hst : s.st = .rdWait) (ha : pendingAnswer s = some (.err c)) :
      Transition s (respond (faultResponse s.lvlQ .readError (some c)) (takeAnswer s))
  | delivers (hst : s.st = .resp) (hb : s.hostBusy = false) : Transition s (deliverResponse s)

/-- Each way the walker's own step can go is a transition. -/
theorem transition_of_walkerMove {s t : State} (h : WalkerMove s t) : Transition s t := by
  cases h with
  | waits hst => exact .waits hst
  | takes w rest t hst hcmd hexec =>
    rcases exec_command_idle (s := takeCommand w rest s) w hst with ⟨hop, hx⟩ | ⟨hop, r, hr, hx⟩ <;>
      rw [hexec] at hx <;> cases hx
    · exact .starts w rest hst hcmd hop
    · exact .answers w rest r hst hcmd hop hr
  | issues hst hb => exact .issues hst hb
  | consumes e t hst ha hexec =>
    rcases exec_entry_cases (s := takeAnswer s) s.lvlQ e hst rfl with
      ⟨h0, hx⟩ | ⟨h0, hl, hx⟩ | ⟨h0, hl, size, mask, hs, hm, hx⟩ <;> rw [hexec] at hx <;> cases hx
    · exact .notPresent e hst ha h0
    · exact .goesOn e hst ha h0 hl
    · exact .resolves e size mask hst ha h0 hl hs hm
  | fails c hst ha => exact .fails c hst ha
  | delivers hst hb => exact .delivers hst hb

theorem transition_of_walkerStep {s t : State} (h : walkerStep s = .next t) : Transition s t :=
  transition_of_walkerMove (move_of_walkerStep h)

/-- With no outside move before it a step is a transition. -/
theorem transition_of_step {s t : State} (he : s.env = []) (h : step s = .next t) : Transition s t :=
  transition_of_walkerStep ((step_of_env_nil he).symm.trans h)

end Sys2Proof.Machine
end

