-- ==== Sys2Proof/Laws/PerInstr.lean ====
section
/-! SUPPORT. The per-instruction family `TableRow`: the encoding of a well-formed instruction meets its own row of the
opcode table (its port, and its fixed bits under its mask). -/

namespace Sys2Proof.Laws

open Sys2Proof

/-- The encoding of `i` meets the row of `i`. -/
def TableRow.Statement (i : Instr) : Prop := i.wf = true → i.row.accepts (encode i) = true

theorem command_row {name : String} {pattern : Nat} (op : BitVec 3) (lvl : BitVec 2) (opa opb : Word)
    (h : ∀ l : BitVec 2, (0#3 ++ l ++ op).toNat &&& 7 = pattern) :
    Row.accepts ⟨name, .cmd, 7, pattern⟩ (.cmd (cmdWord op lvl opa opb)) = true := by
  simp [Row.accepts, header_of_cmdWord, h lvl]

theorem entry_row {name : String} {mask pattern : Nat} (L : Level) (e : Word) (hm : mask < 2 ^ 64)
    (hp : pattern < 2 ^ 64) (h : inClass (BitVec.ofNat 64 mask) (BitVec.ofNat 64 pattern) e = true) :
    Row.accepts ⟨name, .entryAt L, mask, pattern⟩ (.entry L e) = true := by
  have := congrArg BitVec.toNat (eq_of_beq h)
  rw [BitVec.toNat_and, BitVec.toNat_ofNat, BitVec.toNat_ofNat, Nat.mod_eq_of_lt hm, Nat.mod_eq_of_lt hp] at this
  simpa [Row.accepts] using this

theorem TableRow.translate (root va : Word) : TableRow.Statement (.translate root va) :=
  fun _ => command_row 0 0 root va (by decide)

theorem TableRow.decodeEntry (lvl : Level) (entry : Word) : TableRow.Statement (.decodeEntry lvl entry) :=
  fun _ => command_row 1 lvl.code entry 0 (by decide)

theorem TableRow.getPml4Index (va : Word) : TableRow.Statement (.getPml4Index va) :=
  fun _ => command_row 2 0 va 0 (by decide)

theorem TableRow.getPdpteIndex (va : Word) : TableRow.Statement (.getPdpteIndex va) :=
  fun _ => command_row 3 0 va 0 (by decide)

theorem TableRow.getPdeIndex (va : Word) : TableRow.Statement (.getPdeIndex va) :=
  fun _ => command_row 4 0 va 0 (by decide)

theorem TableRow.getPteIndex (va : Word) : TableRow.Statement (.getPteIndex va) :=
  fun _ => command_row 5 0 va 0 (by decide)

theorem TableRow.getTableBase (entry : Word) : TableRow.Statement (.getTableBase entry) :=
  fun _ => command_row 6 0 entry 0 (by decide)

theorem TableRow.computeEntryAddress (base index : Word) : TableRow.Statement (.computeEntryAddress base index) :=
  fun _ => command_row 7 0 base index (by decide)

theorem TableRow.pml4eNp (entry : Word) : TableRow.Statement (.pml4eNp entry) :=
  fun h => entry_row _ _ (by decide) (by decide) h

theorem TableRow.pml4eTable (entry : Word) : TableRow.Statement (.pml4eTable entry) :=
  fun h => entry_row _ _ (by decide) (by decide) h

theorem TableRow.pdpteNp (entry : Word) : TableRow.Statement (.pdpteNp entry) :=
  fun h => entry_row _ _ (by decide) (by decide) h

theorem TableRow.pdpteTable (entry : Word) : TableRow.Statement (.pdpteTable entry) :=
  fun h => entry_row _ _ (by decide) (by decide) h

theorem TableRow.pdpte1g (entry : Word) : TableRow.Statement (.pdpte1g entry) :=
  fun h => entry_row _ _ (by decide) (by decide) h

theorem TableRow.pdeNp (entry : Word) : TableRow.Statement (.pdeNp entry) :=
  fun h => entry_row _ _ (by decide) (by decide) h

theorem TableRow.pdeTable (entry : Word) : TableRow.Statement (.pdeTable entry) :=
  fun h => entry_row _ _ (by decide) (by decide) h

theorem TableRow.pde2m (entry : Word) : TableRow.Statement (.pde2m entry) :=
  fun h => entry_row _ _ (by decide) (by decide) h

theorem TableRow.pteNp (entry : Word) : TableRow.Statement (.pteNp entry) :=
  fun h => entry_row _ _ (by decide) (by decide) h

theorem TableRow.pte4k (entry : Word) : TableRow.Statement (.pte4k entry) :=
  fun h => entry_row _ _ (by decide) (by decide) h

end Sys2Proof.Laws
end

