-- ==== Sys2Proof/Laws/Response.lean ====
section
/-! SUPPORT. The response word bit by bit. -/

namespace Sys2Proof.Machine

variable {Cause : Type}

theorem Response.bits_bit (r : Response Cause) (i : Nat) :
    r.bits.getLsbD i =
      if i < 2 then r.status.code.getLsbD i else if i < 4 then r.size.code.getLsbD (i - 2)
      else if i < 6 then r.level.code.getLsbD (i - 4) else if i < 7 then r.reason.code.getLsbD (i - 6)
      else if i < 8 then r.present else if i < 9 then r.isLeaf else if i < 16 then false
      else if i < 80 then r.value.getLsbD (i - 16) else r.flags.getLsbD (i - 80) := by
  change BitVec.getLsbD (w := 64 + 64 + (7 + 1 + 1 + 1 + 2 + 2 + 2))
    (r.flags ++ r.value ++ (0#7 ++ BitVec.ofBool r.isLeaf ++ BitVec.ofBool r.present ++ r.reason.code ++
      r.level.code ++ r.size.code ++ r.status.code)) i = _
  simp only [BitVec.getLsbD_append, BitVec.getLsbD_ofBool]
  split_ifs <;> first | rfl | omega | simp_all

end Sys2Proof.Machine
end

