-- ==== Sys2Proof/Laws/Views.lean ====
section
/-! SUPPORT. What the views of Safety.lean and the change of the causes do to each field, one lemma per field. -/

namespace Sys2Proof.Machine

/-! ### State.mapCause -/

@[simp] theorem mapCause_st {C D : Type} (f : C → D) (s : State C) : (s.mapCause f).st = s.st := rfl
@[simp] theorem mapCause_cmdQ {C D : Type} (f : C → D) (s : State C) : (s.mapCause f).cmdQ = s.cmdQ := rfl
@[simp] theorem mapCause_vaQ {C D : Type} (f : C → D) (s : State C) : (s.mapCause f).vaQ = s.vaQ := rfl
@[simp] theorem mapCause_baseQ {C D : Type} (f : C → D) (s : State C) : (s.mapCause f).baseQ = s.baseQ := rfl
@[simp] theorem mapCause_lvlQ {C D : Type} (f : C → D) (s : State C) : (s.mapCause f).lvlQ = s.lvlQ := rfl
@[simp] theorem mapCause_eaQ {C D : Type} (f : C → D) (s : State C) : (s.mapCause f).eaQ = s.eaQ := rfl
@[simp] theorem mapCause_rspQ {C D : Type} (f : C → D) (s : State C) : (s.mapCause f).rspQ = s.rspQ.map (Response.mapCause f) := rfl
@[simp] theorem mapCause_cmd {C D : Type} (f : C → D) (s : State C) : (s.mapCause f).cmd = s.cmd := rfl
@[simp] theorem mapCause_rdRsp {C D : Type} (f : C → D) (s : State C) : (s.mapCause f).rdRsp = s.rdRsp.map (ReadResp.mapCause f) := rfl
@[simp] theorem mapCause_rdReqLog {C D : Type} (f : C → D) (s : State C) : (s.mapCause f).rdReqLog = s.rdReqLog := rfl
@[simp] theorem mapCause_rspLog {C D : Type} (f : C → D) (s : State C) : (s.mapCause f).rspLog = s.rspLog.map (Response.mapCause f) := rfl
@[simp] theorem mapCause_env {C D : Type} (f : C → D) (s : State C) : (s.mapCause f).env = s.env.map (List.map (EnvMove.mapCause f)) := rfl
@[simp] theorem mapCause_hostBusy {C D : Type} (f : C → D) (s : State C) : (s.mapCause f).hostBusy = s.hostBusy := rfl
@[simp] theorem mapCause_memBusy {C D : Type} (f : C → D) (s : State C) : (s.mapCause f).memBusy = s.memBusy := rfl
@[simp] theorem mapCause_mem {C D : Type} (f : C → D) (s : State C) : (s.mapCause f).mem = s.mem := rfl
@[simp] theorem mapCause_failing {C D : Type} (f : C → D) (s : State C) : (s.mapCause f).failing = s.failing.map fun p => (p.1, f p.2) := rfl
@[simp] theorem mapCause_byteOrder {C D : Type} (f : C → D) (s : State C) : (s.mapCause f).byteOrder = s.byteOrder := rfl
@[simp] theorem mapCause_freeIdx {C D : Type} (f : C → D) (s : State C) : (s.mapCause f).freeIdx = s.freeIdx := rfl

@[simp] theorem valueResponse_mapCause {C D : Type} (f : C → D) (v : Word) :
    (valueResponse v).mapCause f = valueResponse v := rfl
@[simp] theorem decodedResponse_mapCause {C D : Type} (f : C → D) (L : Level) (d : DecodedEntry) :
    (decodedResponse L d).mapCause f = decodedResponse L d := rfl
@[simp] theorem resolvedResponse_mapCause {C D : Type} (f : C → D) (pa : Word) (size : PageSize) (L : Level) (flags : Word) :
    (resolvedResponse pa size L flags).mapCause f = resolvedResponse pa size L flags := rfl
@[simp] theorem faultResponse_mapCause {C D : Type} (f : C → D) (L : Level) (reason : Reason) (cause : Option C) :
    (faultResponse L reason cause).mapCause f = faultResponse L reason (cause.map f) := rfl
@[simp] theorem mapCause_bits {C D : Type} (f : C → D) (r : Response C) : (r.mapCause f).bits = r.bits := rfl

/-! ### outsideView -/

@[simp] theorem outsideView_st (s : State) : (outsideView s).st = s.st := by unfold outsideView; split <;> rfl
@[simp] theorem outsideView_cmdQ (s : State) : (outsideView s).cmdQ = 0 := by unfold outsideView; split <;> rfl
@[simp] theorem outsideView_rspQ (s : State) : (outsideView s).rspQ = s.rspQ := by unfold outsideView; split <;> rfl
@[simp] theorem outsideView_cmd (s : State) : (outsideView s).cmd = s.cmd := by unfold outsideView; split <;> rfl
@[simp] theorem outsideView_rdRsp (s : State) : (outsideView s).rdRsp = s.rdRsp := by unfold outsideView; split <;> rfl
@[simp] theorem outsideView_rdReqLog (s : State) : (outsideView s).rdReqLog = s.rdReqLog := by unfold outsideView; split <;> rfl
@[simp] theorem outsideView_rspLog (s : State) : (outsideView s).rspLog = s.rspLog := by unfold outsideView; split <;> rfl
@[simp] theorem outsideView_env (s : State) : (outsideView s).env = s.env := by unfold outsideView; split <;> rfl
@[simp] theorem outsideView_hostBusy (s : State) : (outsideView s).hostBusy = s.hostBusy := by unfold outsideView; split <;> rfl
@[simp] theorem outsideView_memBusy (s : State) : (outsideView s).memBusy = s.memBusy := by unfold outsideView; split <;> rfl
@[simp] theorem outsideView_mem (s : State) : (outsideView s).mem = s.mem := by unfold outsideView; split <;> rfl
@[simp] theorem outsideView_failing (s : State) : (outsideView s).failing = s.failing := by unfold outsideView; split <;> rfl
@[simp] theorem outsideView_byteOrder (s : State) : (outsideView s).byteOrder = s.byteOrder := by unfold outsideView; split <;> rfl
@[simp] theorem outsideView_freeIdx (s : State) : (outsideView s).freeIdx = 0 := by unfold outsideView; split <;> rfl

/-- In a walk the view keeps the walk registers. -/
theorem outsideView_of_walking {s : State} (h : walking s) : outsideView s = { s with cmdQ := 0, freeIdx := 0 } := by
  unfold outsideView
  rcases h with h | h <;> rw [h]

/-! ### sinceView -/

@[simp] theorem sinceView_rdReqLog (s t : State) : (sinceView s t).rdReqLog = t.rdReqLog.drop s.rdReqLog.length := by
  simp [sinceView]
@[simp] theorem sinceView_rspLog (s t : State) : (sinceView s t).rspLog = t.rspLog.drop s.rspLog.length := by
  simp [sinceView]

end Sys2Proof.Machine
end

