-- ==== Sys2Proof/Tests/Slice0.lean ====
section
/-! SUPPORT. Tests, and a witness for the hypotheses of every statement that has some. Expected values are those of
95_test_vectors.md (the vector is named in the test's comment) or of the rule named; none was taken from the model. -/

open Sys2Proof Sys2Proof.Machine

namespace Sys2Proof.Tests

/-! ### Helpers -/

/-- The next state, if there is one. -/
def after : Host.Outcome State Fault Refusal → Option State
  | .next s => some s
  | .fault _ => none
  | .refused _ => none

/-- The bits of the response held after a step. -/
def answered (o : Host.Outcome State Fault Refusal) : Option RspBits := ((after o).bind State.rspQ).map Response.bits

/-- The word `{opb, opa, hdr}`, as 95_test_vectors.md writes command words. -/
def word (opb opa : Word) (hdr : Byte) : CmdWord := opb ++ opa ++ hdr

/-- The word `{flags, value, low}`, as 95_test_vectors.md writes response words. -/
def rsp (flags value : Word) (low : BitVec 16) : RspBits := flags ++ value ++ low

/-- IDLE with one command offered. -/
def offering (w : CmdWord) : State := { State.reset with cmd := [w] }

/-- RD_WAIT at a level, in the walk of `va`. -/
def waiting (L : Level) (va : Word) : State := { State.reset with st := .rdWait, lvlQ := L, vaQ := va }

/-- The virtual address of section 2.5: indices 1, 2, 3, 4 and offset 0x567. -/
def va : Word := 0x8080604567

/-- A walk of `va` in WALK at PML4, registers as in program P1 after the acceptance. -/
def walkState : State :=
  { State.reset with
    st := .walk, cmdQ := word 0x8080604567 0x100000 0x00, vaQ := va, baseQ := 0x100000, eaQ := 0x100008 }

/-- The same walk in RD_WAIT at PDE, registers as in program P1, the answer offered. -/
def pdeState (r : ReadResp) : State :=
  { State.reset with
    st := .rdWait, cmdQ := word 0x8080604567 0x100000 0x00, vaQ := va, baseQ := 0x300000, lvlQ := .pde,
    eaQ := 0x300018, rdRsp := some r }

/-- RESP with a response held. -/
def respState : State := { State.reset with st := .resp, rspQ := some (valueResponse 1) }

/-! ### WellFormed: an ill-formed term for each check (30_encoding.md R78) -/

theorem test_wf_refuses_present_pml4eNp : (Instr.pml4eNp 0x1).wf = false := by decide
theorem test_wf_refuses_absent_pml4eTable : (Instr.pml4eTable 0x200002).wf = false := by decide
theorem test_wf_refuses_present_pdpteNp : (Instr.pdpteNp 0x81).wf = false := by decide
theorem test_wf_refuses_large_pdpteTable : (Instr.pdpteTable 0x81).wf = false := by decide
theorem test_wf_refuses_absent_pdpteTable : (Instr.pdpteTable 0x80).wf = false := by decide
theorem test_wf_refuses_small_pdpte1g : (Instr.pdpte1g 0x1).wf = false := by decide
theorem test_wf_refuses_absent_pdpte1g : (Instr.pdpte1g 0x80).wf = false := by decide
theorem test_wf_refuses_present_pdeNp : (Instr.pdeNp 0x1).wf = false := by decide
theorem test_wf_refuses_large_pdeTable : (Instr.pdeTable 0x81).wf = false := by decide
theorem test_wf_refuses_small_pde2m : (Instr.pde2m 0x1).wf = false := by decide
theorem test_wf_refuses_present_pteNp : (Instr.pteNp 0x1).wf = false := by decide
theorem test_wf_refuses_absent_pte4k : (Instr.pte4k 0x80).wf = false := by decide

/-! ### Decode: every constructor, from a word of the spec -/

/-- P1 command 6; R84. -/
theorem test_decode_translate :
    decode (.cmd (word 0x0000008080604567 0x0000000000100000 0x00)) = .translate 0x100000 0x8080604567 := by decide
/-- Vector E1: reserved bits 7:5 are ignored. -/
theorem test_decode_translate_reserved :
    decode (.cmd (word 0x0000008080604567 0x0000000000100000 0xE0)) = .translate 0x100000 0x8080604567 := by decide
/-- Vector E2: TRANSLATE ignores `lvl`. -/
theorem test_decode_translate_level :
    decode (.cmd (word 0x0000008080604567 0x0000000000100000 0x18)) = .translate 0x100000 0x8080604567 := by decide
/-- Section 2.4. -/
theorem test_decode_decodeEntry : decode (.cmd (word 0 0x0000000000200083 0x11)) = .decodeEntry .pde 0x200083 := by decide
/-- P2 commands 2 and 3, P4 command 4: the other three levels. -/
theorem test_decode_decodeEntry_levels :
    decode (.cmd (word 0 0x500007 0x01)) = .decodeEntry .pml4 0x500007 ∧
    decode (.cmd (word 0 0x40001083 0x09)) = .decodeEntry .pdpte 0x40001083 ∧
    decode (.cmd (word 0 0x100003 0x19)) = .decodeEntry .pte 0x100003 := by decide
/-- P1 command 1. -/
theorem test_decode_getPml4Index : decode (.cmd (word 0 0x0000008080604567 0x02)) = .getPml4Index 0x8080604567 := by decide
/-- Vector E3: `opb` is ignored. -/
theorem test_decode_getPml4Index_opb :
    decode (.cmd (word 0xFFFFFFFFFFFFFFFF 0x8080604567 0x02)) = .getPml4Index 0x8080604567 := by decide
/-- P1 command 2. -/
theorem test_decode_getPdpteIndex : decode (.cmd (word 0 0x0000008080604567 0x03)) = .getPdpteIndex 0x8080604567 := by decide
/-- P1 command 3. -/
theorem test_decode_getPdeIndex : decode (.cmd (word 0 0x0000008080604567 0x04)) = .getPdeIndex 0x8080604567 := by decide
/-- P1 command 4. -/
theorem test_decode_getPteIndex : decode (.cmd (word 0 0x0000008080604567 0x05)) = .getPteIndex 0x8080604567 := by decide
/-- P1 command 7. -/
theorem test_decode_getTableBase :
    decode (.cmd (word 0 0x80000000ABCDE063 0x06)) = .getTableBase 0x80000000ABCDE063 := by decide
/-- P1 command 5. -/
theorem test_decode_computeEntryAddress :
    decode (.cmd (word 0x1 0x0000000000100000 0x07)) = .computeEntryAddress 0x100000 1 := by decide
/-- T2. -/
theorem test_decode_pml4eNp : decode (.entry .pml4 0x200002) = .pml4eNp 0x200002 := by decide
/-- T12: bit 7 does not matter at PML4. -/
theorem test_decode_pml4eTable : decode (.entry .pml4 0x200083) = .pml4eTable 0x200083 := by decide
/-- T22: PS set, not present. -/
theorem test_decode_pdpteNp : decode (.entry .pdpte 0x40000080) = .pdpteNp 0x40000080 := by decide
/-- T1. -/
theorem test_decode_pdpteTable : decode (.entry .pdpte 0x300003) = .pdpteTable 0x300003 := by decide
/-- T11. -/
theorem test_decode_pdpte1g : decode (.entry .pdpte 0x140000083) = .pdpte1g 0x140000083 := by decide
/-- T4. -/
theorem test_decode_pdeNp : decode (.entry .pde 0x0) = .pdeNp 0x0 := by decide
/-- T1. -/
theorem test_decode_pdeTable : decode (.entry .pde 0x400003) = .pdeTable 0x400003 := by decide
/-- T10. -/
theorem test_decode_pde2m : decode (.entry .pde 0xA000E3) = .pde2m 0xA000E3 := by decide
/-- T5. -/
theorem test_decode_pteNp : decode (.entry .pte 0x80000000ABCDE062) = .pteNp 0x80000000ABCDE062 := by decide
/-- T13: bit 7 does not matter at PTE. -/
theorem test_decode_pte4k : decode (.entry .pte 0x80000000ABCDE0E3) = .pte4k 0x80000000ABCDE0E3 := by decide

/-- R80: the encoder writes 0 in every reserved bit and ignored field (P2 command 3). -/
theorem test_encode_decodeEntry : encode (.decodeEntry .pdpte 0x40001083) = .cmd (word 0 0x40001083 0x09) := by decide

/-- R82: words of other widths are none of the walker's. -/
theorem test_width_rejected : portWord .pml4 72 0 = .error .notAPortWidth ∧ decodeTableWord 144 0 = none := ⟨rfl, rfl⟩

/-- A header alone is a command word whose operands are 0 (log entry 13). -/
theorem test_table_word_header : decodeTableWord 8 0x19 = some (.decodeEntry .pte 0) := by decide

/-- A 64-bit word is an entry, read at PML4 (log entry 13). -/
theorem test_table_word_entry : decodeTableWord 64 0x200003 = some (.pml4eTable 0x200003) := by decide

/-! ### The commands -/

/-- P1 command 6, `accept`: `base_q` and `ea_q`. -/
theorem test_translate_accept :
    (after (exec (.translate 0x100000 va) State.reset)).map (fun t => (t.baseQ, t.eaQ)) = some (0x100000, 0x100008) := by
  decide
/-- T15: a root with bits 63:52 and 11:0 set. -/
theorem test_translate_root_cut :
    (after (exec (.translate 0xFFF0000000100FFF va) State.reset)).map State.eaQ = some 0x100008 := by decide
/-- Section 2.4, the response word of DE6 at PDE. -/
theorem test_decodeEntry_de6 :
    answered (exec (.decodeEntry .pde 0x200083) State.reset) = some (rsp 0x83 0x200000 0x01A0) := by decide
/-- Vector E4: a zero entry at PTE. -/
theorem test_decodeEntry_e4 : answered (exec (.decodeEntry .pte 0) State.reset) = some (rsp 0 0 0x0130) := by decide
/-- X2. -/
theorem test_getPml4Index_ones :
    answered (exec (.getPml4Index 0xFFFFFFFFFFFFFFFF) State.reset) = some (rsp 0 0x1FF 0) := by decide
/-- X3. -/
theorem test_getPml4Index_x3 :
    answered (exec (.getPml4Index 0xFFFF800040001234) State.reset) = some (rsp 0 0x100 0) := by decide
/-- X4. -/
theorem test_getPdpteIndex_x4 : answered (exec (.getPdpteIndex va) State.reset) = some (rsp 0 0x2 0) := by decide
/-- X4. -/
theorem test_getPdeIndex_x4 : answered (exec (.getPdeIndex va) State.reset) = some (rsp 0 0x3 0) := by decide
/-- X4. -/
theorem test_getPteIndex_x4 : answered (exec (.getPteIndex va) State.reset) = some (rsp 0 0x4 0) := by decide
/-- B2. -/
theorem test_getTableBase_ones :
    answered (exec (.getTableBase 0xFFFFFFFFFFFFFFFF) State.reset) = some (rsp 0 0x000FFFFFFFFFF000 0) := by decide
/-- B4: bit 12 of a large-page leaf is kept. -/
theorem test_getTableBase_leaf :
    answered (exec (.getTableBase 0x40001083) State.reset) = some (rsp 0 0x40001000 0) := by decide
/-- A8. -/
theorem test_computeEntryAddress_ones :
    answered (exec (.computeEntryAddress 0xFFFFFFFFFFFFFFFF 0xFFFFFFFFFFFFFFFF) State.reset) =
      some (rsp 0 0x000FFFFFFFFFFFF8 0) := by decide
/-- A5. -/
theorem test_computeEntryAddress_cut :
    answered (exec (.computeEntryAddress 0x5000 0x201) State.reset) = some (rsp 0 0x5008 0) := by decide

/-! ### The entry classes -/

/-- S3. -/
theorem test_pml4eNp_s3 :
    answered (exec (.pml4eNp 0xFFFFFFFFFFFFFFFE) (waiting .pml4 0)) = some (rsp 0 0 0x0002) := by decide
/-- T18: a PML4E of all ones leads to 0x000FFFFFFFFFF010. -/
theorem test_pml4eTable_ones :
    (after (exec (.pml4eTable 0xFFFFFFFFFFFFFFFF) (waiting .pml4 va))).map State.eaQ = some 0x000FFFFFFFFFF010 := by
  decide
/-- T3: status 2, level 1, reason 0 (R67). -/
theorem test_pdpteNp_t3 : answered (exec (.pdpteNp 0x300002) (waiting .pdpte va)) = some (rsp 0 0 0x0012) := by decide
/-- P1, the PDPTE row. -/
theorem test_pdpteTable_p1 :
    (after (exec (.pdpteTable 0x300003) (waiting .pdpte va))).map (fun t => (t.baseQ, t.lvlQ, t.eaQ)) =
      some (0x300000, .pde, 0x300018) := by decide
/-- T11. -/
theorem test_pdpte1g_t11 :
    answered (exec (.pdpte1g 0x140000083) (waiting .pdpte va)) = some (rsp 0x83 0x140604567 0x0019) := by decide
/-- T17: bits 29:12 of the leaf go to the flags. -/
theorem test_pdpte1g_t17 :
    answered (exec (.pdpte1g 0x17FFFF083) (waiting .pdpte va)) = some (rsp 0x3FFFF083 0x140604567 0x0019) := by decide
/-- T4. -/
theorem test_pdeNp_t4 : answered (exec (.pdeNp 0) (waiting .pde va)) = some (rsp 0 0 0x0022) := by decide
/-- P1, the PDE row. -/
theorem test_pdeTable_p1 :
    (after (exec (.pdeTable 0x400003) (waiting .pde va))).map (fun t => (t.baseQ, t.lvlQ, t.eaQ)) =
      some (0x400000, .pte, 0x400020) := by decide
/-- T10. -/
theorem test_pde2m_t10 :
    answered (exec (.pde2m 0xA000E3) (waiting .pde va)) = some (rsp 0xE3 0xA04567 0x0025) := by decide
/-- T23. -/
theorem test_pde2m_t23 :
    answered (exec (.pde2m 0xFFFFFFFFFFFFFFFF) (waiting .pde va)) =
      some (rsp 0xFFF00000001FFFFF 0xFFFFFFFE04567 0x0025) := by decide
/-- T5: status 2, level 3, reason 0 (R67). -/
theorem test_pteNp_t5 :
    answered (exec (.pteNp 0x80000000ABCDE062) (waiting .pte va)) = some (rsp 0 0 0x0032) := by decide
/-- T1. -/
theorem test_pte4k_t1 :
    answered (exec (.pte4k 0x80000000ABCDE063) (waiting .pte va)) =
      some (rsp 0x8000000000000063 0xABCDE567 0x0031) := by decide

/-! ### The step, the ports and the image -/

/-- T8: the response word and the cause of a failed read at PDE. -/
theorem test_step_read_error_t8 :
    (after (step (pdeState (.err 7)))).bind (fun t => t.rspQ.map fun r => (r.bits, r.cause)) =
      some (rsp 0 0 0x0062, some 7) := by decide
/-- T8: no further read goes out. -/
theorem test_step_read_error_no_read : (after (step (pdeState (.err 7)))).bind rdReqOffered = none := by decide
/-- P1 command 6: the first read. -/
theorem test_step_issue_p1 : (after (step walkState)).map State.rdReqLog = some [0x100008] := by decide
/-- R44: the 8 bytes of MA's first entry, little-endian. -/
theorem test_image_little :
    Memory.readWord .little [(0x100008, 0x03), (0x10000A, 0x20)] 0x100008 = 0x200003 := by decide
/-- T4 over an image: an unlisted entry reads 0, so the PDE is not present. -/
theorem test_step_image_t4 :
    answered (step { pdeState (.err 7) with rdRsp := none }) = some (rsp 0 0 0x0022) := by decide
/-- R14: a command is not taken in RESP. -/
theorem test_command_not_taken_in_resp :
    (after (step { respState with hostBusy := true, cmd := [word 0 0 0x02] })).map State.cmd = some [word 0 0 0x02] := by
  decide
/-- 93 I9: an answer nobody asked for is refused. -/
theorem test_unsolicited_answer_refused :
    step { State.reset with env := [[.answer (.ok 0)]] } = .refused .unsolicitedReadResponse := rfl
/-- R151: reset during a walk. -/
theorem test_reset_in_walk :
    (after (applyMove .reset walkState)).map (fun t => (t.st, t.rspLog)) = some (.idle, []) := by rfl
/-- `withFetchWord`: the next step runs the command placed (section 2.4, DE6). -/
theorem test_fetch_command :
    answered (step (State.reset.withFetchWord 136 (word 0 0x200083 0x11).toNat)) = some (rsp 0x83 0x200000 0x01A0) := by
  decide
/-- `withFetchWord`: the next step runs the entry placed, at PML4 (T19). -/
theorem test_fetch_entry : answered (step (State.reset.withFetchWord 64 0)) = some (rsp 0 0 0x0002) := by decide

/-! ### The pseudocode of R109 as `translateSpec` gives it -/

/-- The answers of image MA (section 2.5). -/
def imageMA (_ : Level) (a : Word) : ReadResp :=
  if a = 0x100008 then .ok 0x200003 else if a = 0x200010 then .ok 0x300003 else if a = 0x300018 then .ok 0x400003
  else if a = 0x400020 then .ok 0x80000000ABCDE063 else .ok 0

/-- T1: reads and response word. -/
theorem test_pseudocode_t1 :
    (translateSpec imageMA 0x100000 va).reads = [0x100008, 0x200010, 0x300018, 0x400020] ∧
    (translateSpec imageMA 0x100000 va).response.bits = rsp 0x8000000000000063 0xABCDE567 0x0031 := by decide

/-- T20: the recursive slot, four reads of one address. -/
theorem test_pseudocode_t20 :
    (translateSpec (fun _ _ => .ok 0x100003) 0x100000 0xFFFFFFFFFFFFFABC).reads =
      [0x100FF8, 0x100FF8, 0x100FF8, 0x100FF8] ∧
    (translateSpec (fun _ _ => .ok 0x100003) 0x100000 0xFFFFFFFFFFFFFABC).response.bits = rsp 0x3 0x100ABC 0x0031 := by
  decide

/-! ### Witnesses: for every statement with hypotheses, states and operands that meet them together -/

theorem invariant_of_pdeState : WalkerInv (pdeState (.ok 0x400003)) where
  registers := fun _ => ⟨by decide, by decide, 0x100000, by decide, fun h => by cases h⟩
  responseHeld := by decide
  responseForm := fun _ h => by cases h
  answerOutstanding := fun _ => rfl
  readLog := fun _ h => by cases h
  responseLog := fun _ h => by cases h
  memory := by decide
  failing := by decide

theorem invariant_of_walkState : WalkerInv walkState where
  registers := fun _ => ⟨by decide, by decide, 0x100000, by decide, fun _ => by decide⟩
  responseHeld := by decide
  responseForm := fun _ h => by cases h
  answerOutstanding := fun h => by cases h
  readLog := fun _ h => by cases h
  responseLog := fun _ h => by cases h
  memory := by decide
  failing := by decide

theorem witness_EveryStepKeepsTheInvariant :
    ∃ s t, WalkerInv s ∧ step s = .next t ∧ t ≠ s :=
  ⟨pdeState (.ok 0x400003), _, invariant_of_pdeState, rfl, by decide⟩

theorem witness_AssertedResetDropsTheCommandInFlight :
    ({ walkState with cmd := [word 0 0 0x02] } : State).env = [] ∧
    ({ walkState with cmd := [word 0 0 0x02] } : State).cmd = word 0 0 0x02 :: [] := by decide

theorem witness_DecodingAnEncodedInstructionGivesItBack :
    [Instr.translate 0x100000 va, .decodeEntry .pte 0, .getPml4Index va, .getPdpteIndex va, .getPdeIndex va,
      .getPteIndex va, .getTableBase 0x40001083, .computeEntryAddress 0x5000 511, .pml4eNp 0x200002,
      .pml4eTable 0x200083, .pdpteNp 0x40000080, .pdpteTable 0x300003, .pdpte1g 0x140000083, .pdeNp 0,
      .pdeTable 0x400003, .pde2m 0xA000E3, .pteNp 0x80000000ABCDE062, .pte4k 0x80000000ABCDE0E3].all Instr.wf = true := by
  decide

theorem witness_EveryPortWordMeetsExactlyOneRow :
    (Instr.pde2m 0x200081).row.accepts (.entry .pde 0x200081) = true ∧
    (Instr.getTableBase 0).row.accepts (.cmd (word 0 0x40001083 0xFE)) = true := by decide

/-- Every value of the field, each level of DECODE_ENTRY, with the reserved bits set. -/
theorem witness_CommandWordsDecodeByTheirOpField :
    (word va 0x100000 0xE0).extractLsb' 0 3 = 0#3 ∧
    ((word 0 0 0xE1).extractLsb' 0 3 = 1#3 ∧ (word 0 0 0xE1).extractLsb' 3 2 = Level.pml4.code) ∧
    ((word 0 0 0xE9).extractLsb' 0 3 = 1#3 ∧ (word 0 0 0xE9).extractLsb' 3 2 = Level.pdpte.code) ∧
    ((word 0 0 0xF1).extractLsb' 0 3 = 1#3 ∧ (word 0 0 0xF1).extractLsb' 3 2 = Level.pde.code) ∧
    ((word 0 0 0xF9).extractLsb' 0 3 = 1#3 ∧ (word 0 0 0xF9).extractLsb' 3 2 = Level.pte.code) ∧
    (word 0 va 0xE2).extractLsb' 0 3 = 2#3 ∧ (word 0 va 0xE3).extractLsb' 0 3 = 3#3 ∧
    (word 0 va 0xE4).extractLsb' 0 3 = 4#3 ∧ (word 0 va 0xE5).extractLsb' 0 3 = 5#3 ∧
    (word 0 va 0xE6).extractLsb' 0 3 = 6#3 ∧ (word 511 0x5000 0xE7).extractLsb' 0 3 = 7#3 := by decide

/-- A not-present entry with every other bit set, a table pointer, a leaf. -/
theorem witness_EntryClassesFollowMaskAndMatch :
    (0xFFFFFFFFFFFFFFFE : Word) &&& 0x1 = 0x0 ∧ (0xFFFFFFFFFFFFFFFF : Word) &&& 0x1 = 0x1 ∧
    (0xFFFFFFFFFFFFFF7F : Word) &&& 0x81 = 0x01 ∧ (0xFFFFFFFFFFFFFFFF : Word) &&& 0x81 = 0x81 := by decide

theorem witness_ResponseWordLosesNothing :
    (faultResponse .pde .readError (some 7)).bits = rsp 0 0 0x0062 ∧
    (faultResponse .pde .readError (some 7)).bits = (faultResponse .pde .readError (some 7)).bits ∧
    (faultResponse .pde .readError (some 7)).cause = (faultResponse .pde .readError (some 7)).cause :=
  ⟨by decide, rfl, rfl⟩

/-- The three leaves that `LayoutLawsHold`, `EveryAddressFormedHasFiftyTwoBits` and `ResolvedAddressIsFramePlusOffset`
range over. -/
theorem witness_LayoutLawsHold :
    (leafSize .pdpte = some .size1G ∧ addrMask .pdpte true = some 0x000FFFFFC0000000) ∧
    (leafSize .pde = some .size2M ∧ addrMask .pde true = some 0x000FFFFFFFE00000) ∧
    (leafSize .pte = some .size4K ∧ addrMask .pte true = some 0x000FFFFFFFFFF000) := by decide

theorem witness_EveryAddressFormedHasFiftyTwoBits :
    State.reset.st = .idle ∧ ∃ t u, exec (.getTableBase 0xFFFFFFFFFFFFFFFF) State.reset = .next t ∧
      exec (.computeEntryAddress 0xFFFFFFFFFFFFFFFF 511) State.reset = .next u :=
  ⟨rfl, _, _, rfl, rfl⟩

/-- The command words of ops 2 to 7 and 1, with every reserved bit set; the index commands need nothing but IDLE. -/
theorem witness_IndexCommandsAnswerTheirField :
    State.reset.st = .idle ∧ (word 0 va 0xE2).extractLsb' 0 3 = 2#3 ∧ (word 0 va 0xE3).extractLsb' 0 3 = 3#3 ∧
    (word 0 va 0xE4).extractLsb' 0 3 = 4#3 ∧ (word 0 va 0xE5).extractLsb' 0 3 = 5#3 := by decide

theorem witness_GetTableBaseAnswersBits51To12 :
    State.reset.st = .idle ∧ (word 0 0x40001083 0xE6).extractLsb' 0 3 = 6#3 := by decide

/-- Index 511 is the last below 512; the base has nothing but bits 51:12. -/
theorem witness_ComputeEntryAddressAnswersTheScaledSlot :
    State.reset.st = .idle ∧ (word 511 0x5000 0xFF).extractLsb' 0 3 = 7#3 ∧ (511 : Word).toNat < 512 ∧
    (0x5000 : Word) &&& 0x000FFFFFFFFFF000 = 0x5000 := by decide

theorem witness_DecodeEntryAnswersTheDecodedFields :
    State.reset.st = .idle ∧ (word 0 0x200083 0x11).extractLsb' 0 3 = 1#3 := by decide

/-- Ops 1 and 7, the ends of the range. -/
theorem witness_PureCommandsAnswerWithoutReading :
    ((word 0 0 0x01).extractLsb' 0 3 ≠ 0#3 ∧ (offering (word 0 0 0x01)).env = [] ∧
      (offering (word 0 0 0x01)).st = .idle ∧ (offering (word 0 0 0x01)).cmd = word 0 0 0x01 :: [] ∧
      (offering (word 0 0 0x01)).hostBusy = false) ∧
    ((word 0 0 0xFF).extractLsb' 0 3 ≠ 0#3 ∧ (offering (word 0 0 0xFF)).env = [] ∧
      (offering (word 0 0 0xFF)).st = .idle ∧ (offering (word 0 0 0xFF)).cmd = word 0 0 0xFF :: [] ∧
      (offering (word 0 0 0xFF)).hostBusy = false) := by decide

theorem witness_TranslateStartsTheWalk : State.reset.st = .idle := rfl

theorem witness_WalkOffersItsEntryAddressOnce :
    rdReqOffered walkState = some 0x100008 ∧ walkState.env = [] ∧ walkState.st = .walk ∧ walkState.memBusy = false := by
  decide

theorem witness_ReadErrorEndsTheWalkAtOnce :
    (pdeState (.err 7)).env = [] ∧ (pdeState (.err 7)).st = .rdWait ∧ (pdeState (.err 7)).rdRsp = some (.err 7) ∧
    (pdeState (.err 7)).hostBusy = false := by decide

/-- Each level. -/
theorem witness_NotPresentEntryEndsTheWalk :
    (0xFFFFFFFFFFFFFFFE : Word).getLsbD 0 = false ∧
    ((waiting .pml4 va).st = .rdWait ∧ (waiting .pml4 va).lvlQ = .pml4) ∧
    ((waiting .pdpte va).st = .rdWait ∧ (waiting .pdpte va).lvlQ = .pdpte) ∧
    ((waiting .pde va).st = .rdWait ∧ (waiting .pde va).lvlQ = .pde) ∧
    ((waiting .pte va).st = .rdWait ∧ (waiting .pte va).lvlQ = .pte) := by decide

/-- A PML4E with bit 7 set, a PDPTE and PDE without; each level. -/
theorem witness_TablePointerSendsTheWalkOn :
    (0x200083 : Word).getLsbD 0 = true ∧ ((0x300003 : Word).getLsbD 0 = true ∧ (0x300003 : Word).getLsbD 7 = false) ∧
    ((waiting .pml4 va).st = .rdWait ∧ (waiting .pml4 va).lvlQ = .pml4) ∧
    ((waiting .pdpte va).st = .rdWait ∧ (waiting .pdpte va).lvlQ = .pdpte) ∧
    ((waiting .pde va).st = .rdWait ∧ (waiting .pde va).lvlQ = .pde) := by decide

/-- Each level with leaves. -/
theorem witness_LeafEntryResolvesTheWalk :
    ((0xA000E3 : Word).getLsbD 0 = true ∧ (0xA000E3 : Word).getLsbD 7 = true) ∧
    ((waiting .pdpte va).st = .rdWait ∧ (waiting .pdpte va).lvlQ = .pdpte) ∧
    ((waiting .pde va).st = .rdWait ∧ (waiting .pde va).lvlQ = .pde) ∧
    ((waiting .pte va).st = .rdWait ∧ (waiting .pte va).lvlQ = .pte) := by decide

/-- Each leaf level; at PTE an entry with bit 7 clear. -/
theorem witness_ResolvedAddressIsFramePlusOffset :
    (leafSize .pdpte = some .size1G ∧ addrMask .pdpte true = some pdpte1gAddrMask ∧ (waiting .pdpte va).st = .rdWait ∧
      (waiting .pdpte va).lvlQ = .pdpte ∧ (0x140000083 : Word).getLsbD 0 = true ∧
      (Level.pdpte ≠ .pte → (0x140000083 : Word).getLsbD 7 = true)) ∧
    (leafSize .pde = some .size2M ∧ addrMask .pde true = some pde2mAddrMask ∧ (waiting .pde va).st = .rdWait ∧
      (waiting .pde va).lvlQ = .pde ∧ (0xA000E3 : Word).getLsbD 0 = true ∧
      (Level.pde ≠ .pte → (0xA000E3 : Word).getLsbD 7 = true)) ∧
    (leafSize .pte = some .size4K ∧ addrMask .pte true = some pteAddrMask ∧ (waiting .pte va).st = .rdWait ∧
      (waiting .pte va).lvlQ = .pte ∧ (0x80000000ABCDE063 : Word).getLsbD 0 = true ∧
      (Level.pte ≠ .pte → (0x80000000ABCDE063 : Word).getLsbD 7 = true)) := by decide

theorem witness_HostTakesTheResponseAndTheWalkerIsIdle :
    respState.env = [] ∧ respState.st = .resp ∧ respState.rspQ = some (valueResponse 1) ∧ respState.hostBusy = false ∧
    rspOffered respState = some (valueResponse 1) := by decide

theorem witness_StepRunsTheCommandTaken :
    (offering (word 0 va 0x04)).env = [] ∧ (offering (word 0 va 0x04)).st = .idle ∧
    (offering (word 0 va 0x04)).cmd = word 0 va 0x04 :: [] := by decide

theorem witness_StepRunsTheEntryTaken :
    (pdeState (.ok 0x400003)).env = [] ∧ (pdeState (.ok 0x400003)).st = .rdWait ∧
    (pdeState (.ok 0x400003)).rdRsp = some (.ok 0x400003) := by decide

/-- An open read at PDE: with its address failing, and without. -/
def openRead (failing : List (Nat × ReadCause)) : State := { pdeState (.ok 0) with rdRsp := none, failing := failing }

theorem witness_ImageAnswersAnOpenRead :
    ((openRead [(0x300018, 7)]).env = [] ∧ (openRead [(0x300018, 7)]).st = .rdWait ∧
      (openRead [(0x300018, 7)]).rdRsp = none ∧ (openRead [(0x300018, 7)]).memBusy = false ∧
      lookupAt (openRead [(0x300018, 7)]).eaQ.toNat (openRead [(0x300018, 7)]).failing = some 7) ∧
    ((openRead []).env = [] ∧ (openRead []).st = .rdWait ∧ (openRead []).rdRsp = none ∧
      (openRead []).memBusy = false ∧ lookupAt (openRead []).eaQ.toNat (openRead []).failing = none) := by decide

theorem witness_EveryStepWithoutMovesCompletes : walkState.env = [] := rfl

/-- An answer in IDLE after another move; a second answer after one that was due; an answer that is due; the two ways of
not being due. -/
theorem witness_OnlyAnUnsolicitedAnswerIsRefused :
    (∃ u, ({ State.reset with env := [[.memBusy true, .answer (.ok 0)]] } : State).env =
        ([.memBusy true] ++ EnvMove.answer (.ok 0) :: []) :: [] ∧
      applyBatch [.memBusy true] State.reset = .next u ∧ mayAnswer u = false ∧
      step { State.reset with env := [[.memBusy true, .answer (.ok 0)]] } = .refused .unsolicitedReadResponse) ∧
    (∃ u, applyBatch [.answer (.ok 1)] (openRead []) = .next u ∧ mayAnswer u = false ∧
      step { openRead [] with env := [[.answer (.ok 1), .answer (.ok 2)]] } = .refused .unsolicitedReadResponse) ∧
    (∃ t, step { openRead [] with env := [[.answer (.ok 1)]] } = .next t) ∧
    ((openRead []).st = .rdWait ∧ (openRead []).rdRsp = none ∧ mayAnswer (openRead []) = true) ∧
    walkState.st ≠ .rdWait ∧ (pdeState (.ok 0)).rdRsp ≠ none :=
  ⟨⟨_, rfl, rfl, by decide, rfl⟩, ⟨_, rfl, by decide, rfl⟩, ⟨_, rfl⟩, by decide, by decide, by decide⟩

/-- Each transition of R17 that changes `st`, one wait, and a reset. -/
theorem witness_SequencerMovesExactlyAsListed :
    (∃ t, step (offering (word 0 va 0x04)) = .next t ∧ t.st ≠ (offering (word 0 va 0x04)).st) ∧
    (∃ t, step (offering (word va 0x100000 0x00)) = .next t ∧ t.st ≠ (offering (word va 0x100000 0x00)).st) ∧
    (∃ t, step walkState = .next t ∧ t.st ≠ walkState.st) ∧
    (∃ t, step (pdeState (.ok 0)) = .next t ∧ t.st ≠ (pdeState (.ok 0)).st) ∧
    (∃ t, step respState = .next t ∧ t.st ≠ respState.st) ∧
    (∃ t, step State.reset = .next t ∧ t.st = State.reset.st) ∧
    (∃ t, applyMove .reset walkState = .next t) ∧
    (∃ t, (EnvMove.memBusy true : EnvMove) ≠ .reset ∧ applyMove (.memBusy true) walkState = .next t) ∧
    (offering (word 0 va 0x04)).cmd ≠ [] ∧ walkState.memBusy = false ∧
    (pendingAnswer (pdeState (.ok 0))).isSome = true ∧ respState.hostBusy = false :=
  ⟨⟨_, rfl, by decide⟩, ⟨_, rfl, by decide⟩, ⟨_, rfl, by decide⟩, ⟨_, rfl, by decide⟩, ⟨_, rfl, by decide⟩,
    ⟨_, rfl, by decide⟩, ⟨_, rfl⟩, ⟨_, by decide, rfl⟩, by decide, by decide, by decide, by decide⟩

/-- Each way of waiting. -/
theorem witness_WalkerWaitsForEverWhenNothingIsOffered :
    (State.reset.env = [] ∧ State.reset.st = .idle ∧ State.reset.cmd = []) ∧
    (({ walkState with memBusy := true } : State).env = [] ∧ ({ walkState with memBusy := true } : State).st = .walk ∧
      ({ walkState with memBusy := true } : State).memBusy = true) ∧
    (({ openRead [] with memBusy := true } : State).env = [] ∧
      ({ openRead [] with memBusy := true } : State).st = .rdWait ∧
      ({ openRead [] with memBusy := true } : State).rdRsp = none ∧
      ({ openRead [] with memBusy := true } : State).memBusy = true) ∧
    (({ respState with hostBusy := true } : State).env = [] ∧ ({ respState with hostBusy := true } : State).st = .resp ∧
      ({ respState with hostBusy := true } : State).hostBusy = true) := by decide

/-- A TRANSLATE, a pure command, a step with no acceptance, a move that is no reset. -/
theorem witness_LatchedRegistersChangeOnlyAtAcceptance :
    (∃ t, step (offering (word va 0x100000 0x00)) = .next t ∧ (offering (word va 0x100000 0x00)).st = .idle ∧
      (offering (word va 0x100000 0x00)).cmd = word va 0x100000 0x00 :: [] ∧
      (word va 0x100000 0x00).extractLsb' 0 3 = 0#3) ∧
    (∃ t, step (offering (word 0 va 0x04)) = .next t ∧ (offering (word 0 va 0x04)).st = .idle ∧
      (offering (word 0 va 0x04)).cmd = word 0 va 0x04 :: [] ∧ (word 0 va 0x04).extractLsb' 0 3 ≠ 0#3) ∧
    (∃ t, walkState.env = [] ∧ step walkState = .next t ∧ (walkState.st ≠ .idle ∨ walkState.cmd = [])) ∧
    (∃ t, (EnvMove.hostBusy true : EnvMove) ≠ .reset ∧ applyMove (.hostBusy true) walkState = .next t) :=
  ⟨⟨_, rfl, by decide, by decide, by decide⟩, ⟨_, rfl, by decide, by decide, by decide⟩,
    ⟨_, by decide, rfl, by decide⟩, ⟨_, by decide, rfl⟩⟩

/-- A walk that goes on, one at PTE, one that starts. -/
theorem witness_LevelGoesUpByOneAndEndsAtPte :
    (∃ t, (pdeState (.ok 0x400003)).env = [] ∧ walking (pdeState (.ok 0x400003)) ∧
      step (pdeState (.ok 0x400003)) = .next t ∧ t.st = .walk) ∧
    (∃ t, (waiting .pte va).env = [] ∧ (waiting .pte va).st = .rdWait ∧ (waiting .pte va).lvlQ = .pte ∧
      step (waiting .pte va) = .next t) ∧
    (∃ t, (offering (word va 0x100000 0x00)).env = [] ∧ (offering (word va 0x100000 0x00)).st = .idle ∧
      step (offering (word va 0x100000 0x00)) = .next t ∧ t.st = .walk) :=
  ⟨⟨_, by decide, .inr rfl, rfl, by decide⟩, ⟨_, by decide, by decide, by decide, rfl⟩,
    ⟨_, by decide, by decide, rfl, by decide⟩⟩

/-- A command outside IDLE; an entry outside RD_WAIT, and one at another level; a step outside IDLE. -/
theorem witness_WordsAreTakenInTheirStatesOnly :
    walkState.st ≠ .idle ∧ (walkState.st ≠ .rdWait ∨ walkState.lvlQ ≠ .pml4) ∧
    ((waiting .pde va).st ≠ .rdWait ∨ (waiting .pde va).lvlQ ≠ .pte) ∧
    ∃ t, walkState.env = [] ∧ step walkState = .next t :=
  ⟨by decide, by decide, by decide, _, by decide, rfl⟩

theorem witness_InstructionsLeaveMemoryPortsAndPlatform :
    ∃ t, exec (.translate 0x100000 va) State.reset = .next t := ⟨_, rfl⟩

/-- An outside write at one address before the step; the byte at another is meant. -/
theorem witness_OnlyOutsideAgentsWriteMemory :
    ∃ s t, s.mem.wf = true ∧ s.env = [[.writeMem 0x100008 0x03]] ∧ step s = .next t ∧
      ∀ batch rest b, s.env = batch :: rest → ∀ x : BitVec 52, EnvMove.writeMem x b ∈ batch → x.toNat ≠ 0x100009 := by
  refine ⟨{ walkState with env := [[.writeMem 0x100008 0x03]] }, _, by decide, rfl, rfl, ?_⟩
  intro batch rest b h x hx
  cases h
  simp only [List.mem_singleton, EnvMove.writeMem.injEq] at hx
  rw [hx.1]
  decide

theorem witness_OutsideWriteChangesOneByte : State.reset.mem.wf = true := by decide

theorem witness_CanonicalMemoriesThatReadAlikeAreEqual :
    Memory.wf [(0x100008, 0x03), (0x10000A, 0x20)] = true ∧
    ∀ a, Memory.readByte [(0x100008, 0x03), (0x10000A, 0x20)] a =
      Memory.readByte [(0x100008, 0x03), (0x10000A, 0x20)] a := ⟨by decide, fun _ => rfl⟩

theorem witness_ImageWordFollowsTheByteOrder :
    ∃ t, step { walkState with byteOrder := .big } = .next t := ⟨_, rfl⟩

/-- Both reasons. -/
theorem witness_FaultComesOnlyFromTheEntryRead :
    (∃ t r, (pdeState (.ok 0)).env = [] ∧ (pdeState (.ok 0)).rspQ = none ∧ step (pdeState (.ok 0)) = .next t ∧
      t.rspQ = some r ∧ r.status = .fault) ∧
    (∃ t r, (pdeState (.err 7)).env = [] ∧ (pdeState (.err 7)).rspQ = none ∧ step (pdeState (.err 7)) = .next t ∧
      t.rspQ = some r ∧ r.status = .fault) :=
  ⟨⟨_, _, by decide, by decide, rfl, rfl, by decide⟩, ⟨_, _, by decide, by decide, rfl, rfl, by decide⟩⟩

theorem witness_OfferedReadAddressIsASlotOfATable :
    WalkerInv walkState ∧ rdReqOffered walkState = some 0x100008 := ⟨invariant_of_walkState, by decide⟩

/-- At PML4 bit 7 may differ; at PDPTE and PDE it is clear. -/
theorem witness_TablePointerFlagsDoNotMatter :
    ((0x200083 : Word).getLsbD 0 = true ∧ (0x200003 : Word).getLsbD 0 = true ∧
      (0x200083 : Word) &&& 0x000FFFFFFFFFF000 = 0x200003 &&& 0x000FFFFFFFFFF000) ∧
    ((0xFFF0000000300F7F : Word).getLsbD 0 = true ∧ (0x300001 : Word).getLsbD 0 = true ∧
      (0xFFF0000000300F7F : Word).getLsbD 7 = false ∧ (0x300001 : Word).getLsbD 7 = false ∧
      (0xFFF0000000300F7F : Word) &&& 0x000FFFFFFFFFF000 = 0x300001 &&& 0x000FFFFFFFFFF000) := by decide

/-- T1: a host that issues one TRANSLATE and a responder that answers from MA, four reads. -/
def scripted : State :=
  { offering (word va 0x100000 0x00) with
    env := answeredScript imageMA (translateSpec imageMA ((word va 0x100000 0x00).extractLsb' 8 64)
      ((word va 0x100000 0x00).extractLsb' 72 64)).reads ++ [] }

theorem witness_TranslateRunsThePseudocode :
    scripted.st = .idle ∧ scripted.rdRsp = none ∧ scripted.memBusy = false ∧ scripted.hostBusy = false ∧
    scripted.cmd = word va 0x100000 0x00 :: [] ∧ (word va 0x100000 0x00).extractLsb' 0 3 = 0#3 ∧
    scripted.env = answeredScript imageMA (translateSpec imageMA ((word va 0x100000 0x00).extractLsb' 8 64)
      ((word va 0x100000 0x00).extractLsb' 72 64)).reads ++ [] ∧ scripted.env.length = 10 :=
  ⟨rfl, rfl, rfl, rfl, rfl, by decide, rfl, by decide⟩

theorem witness_TranslateOverAnImageRunsThePseudocode :
    (offering (word va 0x100000 0x00)).st = .idle ∧ (offering (word va 0x100000 0x00)).rdRsp = none ∧
    (offering (word va 0x100000 0x00)).memBusy = false ∧ (offering (word va 0x100000 0x00)).hostBusy = false ∧
    (offering (word va 0x100000 0x00)).cmd = word va 0x100000 0x00 :: [] ∧
    (word va 0x100000 0x00).extractLsb' 0 3 = 0#3 ∧ (offering (word va 0x100000 0x00)).env = [] := by decide

/-- A walk in flight, and a command about to be taken. -/
theorem witness_CommandEndsWithinTenSteps :
    (walkState.env = [] ∧ walkState.memBusy = false ∧ walkState.hostBusy = false) ∧
    ((offering (word 0 va 0x04)).env = [] ∧ (offering (word 0 va 0x04)).memBusy = false ∧
      (offering (word 0 va 0x04)).hostBusy = false ∧ (offering (word 0 va 0x04)).st = .idle ∧
      (offering (word 0 va 0x04)).cmd ≠ []) := by decide

/-- IDLE with a command offered, after a command that delivered a response and read once; its registers differ too. -/
def laterState : State :=
  { offering (word 0 va 0x02) with
    vaQ := va, eaQ := 0x100008, lvlQ := .pde, rdReqLog := [0x100008], rspLog := [valueResponse 7] }

/-- Different commands before, the same offers now; the run from there delivers a response. -/
theorem witness_NoStatePassesFromOneCommandToTheNext :
    sinceView laterState laterState = sinceView (offering (word 0 va 0x02)) (offering (word 0 va 0x02)) ∧
    laterState.rspLog ≠ (offering (word 0 va 0x02)).rspLog ∧ laterState.rdReqLog ≠ [] ∧
    ∃ t, run 2 laterState = .next t ∧ t.rspLog = [valueResponse 7, valueResponse 1] :=
  ⟨by decide, by decide, by decide, _, rfl, by decide⟩

/-- T14 and T15 and E1 and E2 at once, and E3: different words, the same significant bits. -/
theorem witness_IgnoredBitsOfACommandAreNeverSeen :
    (significantBits (word 0x1234008080604567 0xFFF0000000100FFF 0xF8) =
        significantBits (word 0x0000008080604567 0x0000000000100000 0x00)) ∧
    (word 0x1234008080604567 0xFFF0000000100FFF 0xF8 ≠ word 0x0000008080604567 0x0000000000100000 0x00) ∧
    significantBits (word 0xFFFFFFFFFFFFFFFF va 0xFA) = significantBits (word 0 va 0x02) := by decide

/-- A failed read of a machine whose causes are texts. -/
theorem witness_CausesAreCarriedVerbatim :
    ({ State.resetOf String with st := .rdWait, rdRsp := some (.err "bus") } : State String).env = [] ∧
    ({ State.resetOf String with st := .rdWait, rdRsp := some (.err "bus") } : State String).st = .rdWait ∧
    ({ State.resetOf String with st := .rdWait, rdRsp := some (.err "bus") } : State String).rdRsp =
      some (.err "bus") := ⟨rfl, rfl, rfl⟩

/-- Two instances, each with a step of its own. -/
theorem witness_WalkerInstancesAreIndependent :
    (0 : Nat) ≠ 1 ∧ (∃ q, Platform.stepAt 0 ⟨walkState, [respState]⟩ = .next q) ∧
    (∃ r, Platform.stepAt 1 ⟨walkState, [respState]⟩ = .next r) ∧
    Platform.instanceAt ⟨walkState, [respState]⟩ 1 = some respState ∧ (∃ t, stepOf respState = .next t) ∧ 1 ≤ 1 :=
  ⟨by decide, ⟨_, rfl⟩, ⟨_, rfl⟩, rfl, ⟨_, rfl⟩, by decide⟩

end Sys2Proof.Tests
end

section
/-! PROOFS. Two runs at a time: what every outside move and every own step of the walker keeps related, every number of
steps keeps related. -/

namespace Sys2Proof.Machine

/-- Two outcomes are alike up to `R`: both answer next states that `R` relates, or both are refused for one reason. -/
def OutcomesAlike (R : State → State → Prop) (o o' : Host.Outcome State Fault Refusal) : Prop :=
  (∃ t t', o = .next t ∧ o' = .next t' ∧ R t t') ∨ ∃ r, o = .refused r ∧ o' = .refused r

theorem OutcomesAlike.of_next {R : State → State → Prop} {t t' : State} (h : R t t') :
    OutcomesAlike R (.next t) (.next t') := .inl ⟨t, t', rfl, rfl, h⟩

/-- Alike outcomes look the same through views that send related states to one state. -/
theorem seenBy_eq_of_alike {R : State → State → Prop} {view view' : State → State}
    (hview : ∀ t t', R t t' → view t = view' t') {o o' : Host.Outcome State Fault Refusal} (h : OutcomesAlike R o o') :
    seenBy view o = seenBy view' o' := by
  rcases h with ⟨t, t', rfl, rfl, hR⟩ | ⟨r, rfl, rfl⟩
  · exact congrArg Host.Outcome.next (hview t t' hR)
  · rfl

/-- Related states have the same outside moves before them, and every move and every own step keeps them related. -/
structure StepsKeepRelated (R : State → State → Prop) : Prop where
  sameMoves : ∀ {t t'}, R t t' → t.env = t'.env
  batchTaken : ∀ {t t'} rest, R t t' → R { t with env := rest } { t' with env := rest }
  move : ∀ m {t t'}, R t t' → OutcomesAlike R (applyMove m t) (applyMove m t')
  ownStep : ∀ {t t'}, R t t' → OutcomesAlike R (walkerStep t) (walkerStep t')

section
variable {R : State → State → Prop} (hR : StepsKeepRelated R)
include hR

theorem StepsKeepRelated.applyBatch_alike (batch : List EnvMove) {t t' : State} (h : R t t') :
    OutcomesAlike R (applyBatch batch t) (applyBatch batch t') := by
  induction batch generalizing t t' with
  | nil => exact .of_next h
  | cons m rest ih =>
    rcases hR.move m h with ⟨u, u', hu, hu', hRu⟩ | ⟨r, hu, hu'⟩ <;> simp only [applyBatch, hu, hu']
    · exact ih hRu
    · exact .inr ⟨r, rfl, rfl⟩

theorem StepsKeepRelated.envTick_alike {t t' : State} (h : R t t') : OutcomesAlike R (envTick t) (envTick t') := by
  have henv := hR.sameMoves h
  cases he : t.env with
  | nil =>
    rw [envTick_nil he, envTick_nil (henv.symm.trans he)]
    exact .of_next h
  | cons batch rest =>
    simp only [envTick, he, henv.symm.trans he]
    exact hR.applyBatch_alike batch (hR.batchTaken rest h)

theorem StepsKeepRelated.step_alike {t t' : State} (h : R t t') : OutcomesAlike R (step t) (step t') := by
  rcases hR.envTick_alike h with ⟨u, u', hu, hu', hRu⟩ | ⟨r, hu, hu'⟩ <;> simp only [step, stepBy, hu, hu']
  · exact hR.ownStep hRu
  · exact .inr ⟨r, rfl, rfl⟩

/-- Runs of the same length from related states go on alike. -/
theorem StepsKeepRelated.run_alike (k : Nat) {t t' : State} (h : R t t') : OutcomesAlike R (run k t) (run k t') := by
  induction k generalizing t t' with
  | zero => exact .of_next h
  | succ k ih =>
    rcases hR.step_alike h with ⟨u, u', hu, hu', hRu⟩ | ⟨r, hu, hu'⟩ <;> simp only [run, hu, hu']
    · exact ih hRu
    · exact .inr ⟨r, rfl, rfl⟩

end

end Sys2Proof.Machine
end

section
/-! PROOFS. No state passes from one command to the next (10_state.md R31): the relation between two runs that the
outside cannot tell apart, and that every step keeps it. -/

namespace Sys2Proof.Machine

/-- Runs from `s` and `s'` that have reached `t` and `t'` are alike to the outside: the same sequencer state, response
held, offers and platform, the same transfers since `s` and `s'`, and in a walk the same walk registers. -/
structure AlikeSince (s s' t t' : State) : Prop where
  st : t.st = t'.st
  rspQ : t.rspQ = t'.rspQ
  cmd : t.cmd = t'.cmd
  rdRsp : t.rdRsp = t'.rdRsp
  env : t.env = t'.env
  hostBusy : t.hostBusy = t'.hostBusy
  memBusy : t.memBusy = t'.memBusy
  mem : t.mem = t'.mem
  failing : t.failing = t'.failing
  byteOrder : t.byteOrder = t'.byteOrder
  reads : ∃ new, t.rdReqLog = s.rdReqLog ++ new ∧ t'.rdReqLog = s'.rdReqLog ++ new
  responses : ∃ new, t.rspLog = s.rspLog ++ new ∧ t'.rspLog = s'.rspLog ++ new
  vaQ : walking t → t.vaQ = t'.vaQ
  baseQ : walking t → t.baseQ = t'.baseQ
  lvlQ : walking t → t.lvlQ = t'.lvlQ
  eaQ : walking t → t.eaQ = t'.eaQ

theorem not_walking_of_idle {s : State} (h : s.st = .idle) : ¬ walking s := by simp [walking, h]

theorem not_walking_of_resp {s : State} (h : s.st = .resp) : ¬ walking s := by simp [walking, h]

theorem walking_of_walk {s : State} (h : s.st = .walk) : walking s := .inl h

theorem walking_of_rdWait {s : State} (h : s.st = .rdWait) : walking s := .inr h

/-! ### The relation and the view -/

/-- Outside a walk the view forgets the walk registers. -/
theorem outsideView_of_not_walking {s : State} (h : ¬ walking s) :
    outsideView s = { s with cmdQ := 0, vaQ := 0, baseQ := 0, lvlQ := .pml4, eaQ := 0, freeIdx := 0 } := by
  unfold outsideView
  split
  · rfl
  · rfl
  · next hst => exact absurd (walking_of_walk hst) h
  · next hst => exact absurd (walking_of_rdWait hst) h

theorem sinceView_of_walking {s t : State} (h : walking t) :
    sinceView s t =
      { t with
        cmdQ := 0, freeIdx := 0
        rdReqLog := t.rdReqLog.drop s.rdReqLog.length, rspLog := t.rspLog.drop s.rspLog.length } :=
  outsideView_of_walking h

theorem sinceView_of_not_walking {s t : State} (h : ¬ walking t) :
    sinceView s t =
      { t with
        cmdQ := 0, vaQ := 0, baseQ := 0, lvlQ := .pml4, eaQ := 0, freeIdx := 0
        rdReqLog := t.rdReqLog.drop s.rdReqLog.length, rspLog := t.rspLog.drop s.rspLog.length } :=
  outsideView_of_not_walking h

theorem walking_congr {t t' : State} (h : t.st = t'.st) : walking t ↔ walking t' := by rw [walking, walking, h]

/-- Runs that are alike look the same since they began. -/
theorem AlikeSince.sinceView_eq {s s' t t' : State} (h : AlikeSince s s' t t') : sinceView s t = sinceView s' t' := by
  have hreads : t.rdReqLog.drop s.rdReqLog.length = t'.rdReqLog.drop s'.rdReqLog.length := by
    obtain ⟨new, h1, h2⟩ := h.reads
    rw [h1, h2, List.drop_left, List.drop_left]
  have hresponses : t.rspLog.drop s.rspLog.length = t'.rspLog.drop s'.rspLog.length := by
    obtain ⟨new, h1, h2⟩ := h.responses
    rw [h1, h2, List.drop_left, List.drop_left]
  by_cases hw : walking t
  · rw [sinceView_of_walking hw, sinceView_of_walking ((walking_congr h.st).mp hw), hreads, hresponses, h.st, h.rspQ,
      h.cmd, h.rdRsp, h.env, h.hostBusy, h.memBusy, h.mem, h.failing, h.byteOrder, h.vaQ hw, h.baseQ hw, h.lvlQ hw,
      h.eaQ hw]
  · rw [sinceView_of_not_walking hw, sinceView_of_not_walking (mt (walking_congr h.st).mpr hw), hreads, hresponses,
      h.st, h.rspQ, h.cmd, h.rdRsp, h.env, h.hostBusy, h.memBusy, h.mem, h.failing, h.byteOrder]

/-- States that look the same at the start of their runs are alike. -/
theorem alikeSince_of_sinceView_eq {s s' : State} (h : sinceView s s = sinceView s' s') : AlikeSince s s' s s' := by
  have field {α : Type} (f : State → α) : f (sinceView s s) = f (sinceView s' s') := congrArg f h
  have hst : s.st = s'.st := by simpa [sinceView] using field State.st
  -- In a walk the view keeps the walk registers of both states.
  have walkField {α : Type} (f : State → α) (hw : walking s) :=
    sinceView_of_walking (s := s) hw ▸ sinceView_of_walking (s := s') ((walking_congr hst).mp hw) ▸ field f
  exact {
    st := hst
    rspQ := by simpa [sinceView] using field State.rspQ
    cmd := by simpa [sinceView] using field State.cmd
    rdRsp := by simpa [sinceView] using field State.rdRsp
    env := by simpa [sinceView] using field State.env
    hostBusy := by simpa [sinceView] using field State.hostBusy
    memBusy := by simpa [sinceView] using field State.memBusy
    mem := by simpa [sinceView] using field State.mem
    failing := by simpa [sinceView] using field State.failing
    byteOrder := by simpa [sinceView] using field State.byteOrder
    reads := ⟨[], by simp, by simp⟩
    responses := ⟨[], by simp, by simp⟩
    vaQ := walkField State.vaQ
    baseQ := walkField State.baseQ
    lvlQ := walkField State.lvlQ
    eaQ := walkField State.eaQ }

/-! ### The operations -/

section
variable {s s' t t' : State}

theorem AlikeSince.after_takeCommand (h : AlikeSince s s' t t') (w : CmdWord) (rest : List CmdWord) :
    AlikeSince s s' (takeCommand w rest t) (takeCommand w rest t') := { h with cmd := rfl }

theorem AlikeSince.after_takeAnswer (h : AlikeSince s s' t t') : AlikeSince s s' (takeAnswer t) (takeAnswer t') :=
  { h with rdRsp := rfl }

theorem AlikeSince.after_issueRead (h : AlikeSince s s' t t') (hw : walking t) :
    AlikeSince s s' (issueRead t) (issueRead t') :=
  { h with
    st := rfl
    reads := by
      obtain ⟨new, h1, h2⟩ := h.reads
      exact ⟨new ++ [t.eaQ], by simp [h1], by simp [h2, h.eaQ hw]⟩
    vaQ := fun _ => h.vaQ hw, baseQ := fun _ => h.baseQ hw, lvlQ := fun _ => h.lvlQ hw, eaQ := fun _ => h.eaQ hw }

theorem AlikeSince.after_deliverResponse (h : AlikeSince s s' t t') :
    AlikeSince s s' (deliverResponse t) (deliverResponse t') :=
  have hw : ¬ walking (deliverResponse t) := not_walking_of_idle rfl
  { h with
    st := rfl, rspQ := rfl
    responses := by
      obtain ⟨new, h1, h2⟩ := h.responses
      exact ⟨new ++ t.rspQ.toList, by simp [h1], by simp [h2, h.rspQ]⟩
    vaQ := (absurd · hw), baseQ := (absurd · hw), lvlQ := (absurd · hw), eaQ := (absurd · hw) }

theorem AlikeSince.after_respond (h : AlikeSince s s' t t') (r : Response) :
    AlikeSince s s' (respond r t) (respond r t') :=
  have hw : ¬ walking (respond r t) := not_walking_of_resp rfl
  { h with
    st := rfl, rspQ := rfl
    vaQ := (absurd · hw), baseQ := (absurd · hw), lvlQ := (absurd · hw), eaQ := (absurd · hw) }

/-- All four walk registers are written, so it does not matter what they held. -/
theorem AlikeSince.after_startWalk (h : AlikeSince s s' t t') (root va : Word) :
    AlikeSince s s' (startWalk root va t) (startWalk root va t') :=
  { h with
    st := rfl, vaQ := fun _ => rfl, baseQ := fun _ => rfl, lvlQ := fun _ => rfl, eaQ := fun _ => rfl }

theorem AlikeSince.after_enterLevel (h : AlikeSince s s' t t') (hw : walking t) (L : Level) (base : Word) :
    AlikeSince s s' (enterLevel L base t) (enterLevel L base t') :=
  { h with
    st := rfl, vaQ := fun _ => h.vaQ hw, baseQ := fun _ => rfl, lvlQ := fun _ => rfl
    eaQ := fun _ => congrArg (fun va => entryAddress base (idx L va)) (h.vaQ hw) }

theorem AlikeSince.after_resetWalker (h : AlikeSince s s' t t') :
    AlikeSince s s' (resetWalker t) (resetWalker t') :=
  have hw : ¬ walking (resetWalker t) := not_walking_of_idle rfl
  { h with
    st := rfl, rspQ := rfl, rdRsp := rfl
    vaQ := (absurd · hw), baseQ := (absurd · hw), lvlQ := (absurd · hw), eaQ := (absurd · hw) }

theorem AlikeSince.mayAnswer_eq (h : AlikeSince s s' t t') : mayAnswer t = mayAnswer t' := by
  rw [mayAnswer, mayAnswer, h.st, h.rdRsp]

theorem AlikeSince.pendingAnswer_eq (h : AlikeSince s s' t t') (hw : walking t) :
    pendingAnswer t = pendingAnswer t' := by
  simp only [pendingAnswer, memoryAnswer, h.rdRsp, h.memBusy, h.eaQ hw, h.failing, h.mem, h.byteOrder]

theorem AlikeSince.applyMove_alike (m : EnvMove) (h : AlikeSince s s' t t') :
    OutcomesAlike (AlikeSince s s') (applyMove m t) (applyMove m t') := by
  rcases m with w | b | b | r | ⟨a, b⟩ | ⟨a, _ | c⟩ | _
  case command => exact .of_next { h with cmd := congrArg (· ++ [w]) h.cmd }
  case hostBusy => exact .of_next { h with hostBusy := rfl }
  case memBusy => exact .of_next { h with memBusy := rfl }
  case answer =>
    simp only [applyMove, h.mayAnswer_eq]
    split
    · exact .of_next { h with rdRsp := rfl }
    · exact .inr ⟨_, rfl, rfl⟩
  case writeMem => exact .of_next { h with mem := congrArg (Memory.writeByte · a.toNat b) h.mem }
  case failAt.none => exact .of_next { h with failing := congrArg (removeAt a.toNat) h.failing }
  case failAt.some => exact .of_next { h with failing := congrArg (insertAt a.toNat c) h.failing }
  case reset => exact .of_next h.after_resetWalker

/-! ### The instructions -/

theorem AlikeSince.onCommand_alike (h : AlikeSince s s' t t') {effect : State → State}
    (heffect : AlikeSince s s' (effect t) (effect t')) :
    OutcomesAlike (AlikeSince s s') (onCommand t effect) (onCommand t' effect) := by
  by_cases hst : t.st = .idle
  · rw [onCommand_idle effect hst, onCommand_idle effect (h.st ▸ hst)]
    exact .of_next heffect
  · rw [onCommand_elsewhere effect hst, onCommand_elsewhere effect (h.st ▸ hst)]
    exact .of_next h

theorem AlikeSince.onEntry_alike (h : AlikeSince s s' t t') (L : Level) {effect : State → State}
    (heffect : walking t → AlikeSince s s' (effect t) (effect t')) :
    OutcomesAlike (AlikeSince s s') (onEntry L t effect) (onEntry L t' effect) := by
  by_cases hst : t.st = .rdWait
  · have hw := walking_of_rdWait hst
    have hlvl := h.lvlQ hw
    by_cases hL : t.lvlQ = L
    · rw [onEntry_taken effect hst hL, onEntry_taken effect (h.st ▸ hst) (hlvl ▸ hL)]
      exact .of_next (heffect hw)
    · rw [onEntry_elsewhere effect (.inr hL), onEntry_elsewhere effect (.inr (hlvl ▸ hL))]
      exact .of_next h
  · rw [onEntry_elsewhere effect (.inl hst), onEntry_elsewhere effect (.inl (h.st ▸ hst))]
    exact .of_next h

theorem AlikeSince.notPresentAt_alike (h : AlikeSince s s' t t') (L : Level) :
    OutcomesAlike (AlikeSince s s') (notPresentAt L t) (notPresentAt L t') :=
  h.onEntry_alike L fun _ => h.after_respond _

theorem AlikeSince.tablePointerAt_alike (h : AlikeSince s s' t t') (L next : Level) (mask entry : Word) :
    OutcomesAlike (AlikeSince s s') (tablePointerAt L next mask entry t) (tablePointerAt L next mask entry t') :=
  h.onEntry_alike L fun hw => h.after_enterLevel hw next _

theorem AlikeSince.leafAt_alike (h : AlikeSince s s' t t') (L : Level) (size : PageSize) (mask entry : Word) :
    OutcomesAlike (AlikeSince s s') (leafAt L size mask entry t) (leafAt L size mask entry t') :=
  h.onEntry_alike L fun hw => by
    rw [h.vaQ hw]
    exact h.after_respond _

/-- No instruction tells alike states apart. -/
theorem AlikeSince.exec_alike (h : AlikeSince s s' t t') (i : Instr) :
    OutcomesAlike (AlikeSince s s') (exec i t) (exec i t') := by
  cases i with
  | translate root va => exact h.onCommand_alike (h.after_startWalk root va)
  | decodeEntry L e => exact h.onCommand_alike (h.after_respond _)
  | getPml4Index va => exact h.onCommand_alike (h.after_respond _)
  | getPdpteIndex va => exact h.onCommand_alike (h.after_respond _)
  | getPdeIndex va => exact h.onCommand_alike (h.after_respond _)
  | getPteIndex va => exact h.onCommand_alike (h.after_respond _)
  | getTableBase e => exact h.onCommand_alike (h.after_respond _)
  | computeEntryAddress b i => exact h.onCommand_alike (h.after_respond _)
  | pml4eNp e => exact h.notPresentAt_alike .pml4
  | pml4eTable e => exact h.tablePointerAt_alike .pml4 .pdpte _ e
  | pdpteNp e => exact h.notPresentAt_alike .pdpte
  | pdpteTable e => exact h.tablePointerAt_alike .pdpte .pde _ e
  | pdpte1g e => exact h.leafAt_alike .pdpte _ _ e
  | pdeNp e => exact h.notPresentAt_alike .pde
  | pdeTable e => exact h.tablePointerAt_alike .pde .pte _ e
  | pde2m e => exact h.leafAt_alike .pde _ _ e
  | pteNp e => exact h.notPresentAt_alike .pte
  | pte4k e => exact h.leafAt_alike .pte _ _ e

/-! ### The walker's own step -/

theorem AlikeSince.move_alike {u u' : State} (h : AlikeSince s s' u u') (hm : nextAction t = .move u)
    (hm' : nextAction t' = .move u') : OutcomesAlike (AlikeSince s s') (walkerStep t) (walkerStep t') := by
  rw [walkerStep_move hm, walkerStep_move hm']
  exact .of_next h

theorem AlikeSince.run_word_alike {u u' : State} {p : PortWord} (h : AlikeSince s s' u u')
    (hr : nextAction t = .run p u) (hr' : nextAction t' = .run p u') :
    OutcomesAlike (AlikeSince s s') (walkerStep t) (walkerStep t') := by
  rw [walkerStep_run hr, walkerStep_run hr']
  exact h.exec_alike _

theorem AlikeSince.walkerStep_alike (h : AlikeSince s s' t t') :
    OutcomesAlike (AlikeSince s s') (walkerStep t) (walkerStep t') := by
  have hst' := h.st.symm
  cases hst : t.st with
  | idle =>
    have hcmd' := h.cmd.symm
    rw [hst] at hst'
    cases hcmd : t.cmd with
    | nil => exact h.move_alike (nextAction_idle_wait hst hcmd) (nextAction_idle_wait hst' (hcmd'.trans hcmd))
    | cons w rest =>
      exact (h.after_takeCommand w rest).run_word_alike (nextAction_idle_take hst hcmd)
        (nextAction_idle_take hst' (hcmd'.trans hcmd))
  | walk =>
    have hb' := h.memBusy.symm
    rw [hst] at hst'
    cases hb : t.memBusy with
    | true => exact h.move_alike (nextAction_walk_wait hst hb) (nextAction_walk_wait hst' (hb'.trans hb))
    | false =>
      exact (h.after_issueRead (walking_of_walk hst)).move_alike (nextAction_walk_issue hst hb)
        (nextAction_walk_issue hst' (hb'.trans hb))
  | rdWait =>
    have hw := walking_of_rdWait hst
    have ha' := (h.pendingAnswer_eq hw).symm
    have hlvl := h.lvlQ hw
    rw [hst] at hst'
    rcases ha : pendingAnswer t with _ | e | c
    · exact h.move_alike (nextAction_rdWait_wait hst ha) (nextAction_rdWait_wait hst' (ha'.trans ha))
    · exact h.after_takeAnswer.run_word_alike (nextAction_rdWait_entry hst ha)
        (hlvl ▸ nextAction_rdWait_entry hst' (ha'.trans ha))
    · exact (h.after_takeAnswer.after_respond _).move_alike (nextAction_rdWait_error hst ha)
        (hlvl ▸ nextAction_rdWait_error hst' (ha'.trans ha))
  | resp =>
    have hb' := h.hostBusy.symm
    rw [hst] at hst'
    cases hb : t.hostBusy with
    | true => exact h.move_alike (nextAction_resp_wait hst hb) (nextAction_resp_wait hst' (hb'.trans hb))
    | false =>
      exact h.after_deliverResponse.move_alike (nextAction_resp_deliver hst hb)
        (nextAction_resp_deliver hst' (hb'.trans hb))

end

theorem stepsKeepAlikeSince (s s' : State) : StepsKeepRelated (AlikeSince s s') where
  sameMoves h := h.env
  batchTaken _ h := { h with env := rfl }
  move m _ _ h := h.applyMove_alike m
  ownStep h := h.walkerStep_alike

/-- A run only appends to the records of its ports. -/
theorem run_appends {k : Nat} {s t : State} (h : run k s = .next t) :
    s.rdReqLog <+: t.rdReqLog ∧ s.rspLog <+: t.rspLog := by
  rcases (stepsKeepAlikeSince s s).run_alike k (alikeSince_of_sinceView_eq rfl) with ⟨u, u', hu, -, hR⟩ | ⟨r, hu, -⟩
  · rw [h] at hu
    cases hu
    obtain ⟨reads, hreads, -⟩ := hR.reads
    obtain ⟨responses, hresponses, -⟩ := hR.responses
    exact ⟨⟨reads, hreads.symm⟩, ⟨responses, hresponses.symm⟩⟩
  · rw [h] at hu
    cases hu

/-- Settles O51: runs from alike states stay alike, so the view of what they append is the same. -/
theorem noStatePassesFromOneCommandToTheNext : Obligations.NoStatePassesFromOneCommandToTheNext := by
  refine ⟨fun k s s' h => ?_, fun k s t h => run_appends h⟩
  exact seenBy_eq_of_alike (fun _ _ hR => hR.sinceView_eq)
    ((stepsKeepAlikeSince s s').run_alike k (alikeSince_of_sinceView_eq h))

end Sys2Proof.Machine
end

section
/-! PROOFS. Every physical address formed has bits 63:52 clear (10_state.md R27). -/

namespace Sys2Proof.Machine

theorem kindMask_and_lt (k : EntryKind) (e : Word) : (e &&& kindMask k).toNat < 2 ^ 52 := by
  apply toNat_lt_of_high_bits
  intro i hi
  rw [BitVec.getLsbD_and, kindMask_bit, decide_eq_false (by omega), Bool.and_false]

theorem offsetMask_high (size : PageSize) (i : Fin 64) (hi : 52 ≤ i.val) : (offsetMask size).getLsbD i = false := by
  cases size <;> revert i <;> decide

/-- The mask of a leaf is the mask of one of the kinds of entry. -/
theorem kind_of_leaf_mask {L : Level} {mask : Word} (h : addrMask L true = some mask) : ∃ k, mask = kindMask k := by
  cases L <;> cases h
  · exact ⟨.leaf1G, rfl⟩
  · exact ⟨.leaf2M, rfl⟩
  · exact ⟨.leaf4K, rfl⟩

theorem leafAddress_lt (k : EntryKind) (size : PageSize) (e va : Word) :
    (leafAddress (kindMask k) size e va).toNat < 2 ^ 52 := by
  apply toNat_lt_of_high_bits
  intro i hi
  rw [leafAddress, BitVec.getLsbD_or, BitVec.getLsbD_and, BitVec.getLsbD_and, kindMask_bit, offsetMask_high size i hi,
    decide_eq_false (by omega), Bool.and_false, Bool.and_false, Bool.or_false]

/-- A pure command taken in IDLE leaves its response in `rsp_q`. -/
theorem rspQ_of_onCommand_respond {s t : State} {r : Response} (hst : s.st = .idle)
    (h : onCommand s (respond r) = .next t) : t.rspQ = some r := by
  rw [onCommand_idle _ hst] at h
  cases h
  rfl

/-- Settles O15, from the masks: bits 63:52 are clear in every mask and in every offset. -/
theorem everyAddressFormedHasFiftyTwoBits : Obligations.EveryAddressFormedHasFiftyTwoBits := by
  refine ⟨entryAddress_lt, masked_base_lt, fun L e => kindMask_and_lt (entryKind L e) e, ?_, ?_, ?_⟩
  · intro L size mask e va _ hmask
    obtain ⟨k, rfl⟩ := kind_of_leaf_mask hmask
    exact leafAddress_lt k size e va
  · intro e s t hst h
    exact ⟨_, rspQ_of_onCommand_respond hst h, masked_base_lt e⟩
  · intro b i s t hst h
    exact ⟨_, rspQ_of_onCommand_respond hst h, entryAddress_lt b i⟩

end Sys2Proof.Machine
end

section
/-! PROOFS. The sequencer state and the latched registers change on their own events only (10_state.md R17, R18). -/

namespace Sys2Proof.Machine

/-! ### The sequencer -/

/-- The transitions that change `st`, each with its event. -/
theorem Transition.st_change {s t : State} (h : Transition s t) (hne : t.st ≠ s.st) :
    (s.st = .idle ∧ t.st = .resp ∧ ∃ w rest, s.cmd = w :: rest ∧ w.extractLsb' 0 3 ≠ 0#3 ∧ t.rspQ.isSome = true) ∨
    (s.st = .idle ∧ t.st = .walk ∧ ∃ w rest, s.cmd = w :: rest ∧ w.extractLsb' 0 3 = 0#3) ∨
    (s.st = .walk ∧ t.st = .rdWait ∧ s.memBusy = false ∧ t.rdReqLog = s.rdReqLog ++ [s.eaQ]) ∨
    (s.st = .rdWait ∧ (t.st = .resp ∨ t.st = .walk) ∧ (pendingAnswer s).isSome = true) ∨
    (s.st = .resp ∧ t.st = .idle ∧ s.hostBusy = false) := by
  have answered {a : ReadResp} (ha : pendingAnswer s = some a) : (pendingAnswer s).isSome = true := by rw [ha]; rfl
  cases h with
  | waits => exact absurd rfl hne
  | starts w rest hst hcmd hop => exact .inr (.inl ⟨hst, rfl, w, rest, hcmd, hop⟩)
  | answers w rest r hst hcmd hop _ => exact .inl ⟨hst, rfl, w, rest, hcmd, hop, rfl⟩
  | issues hst hb => exact .inr (.inr (.inl ⟨hst, rfl, hb, rfl⟩))
  | notPresent e hst ha _ => exact .inr (.inr (.inr (.inl ⟨hst, .inl rfl, answered ha⟩)))
  | goesOn e hst ha _ _ => exact .inr (.inr (.inr (.inl ⟨hst, .inr rfl, answered ha⟩)))
  | resolves e size mask hst ha _ _ _ _ => exact .inr (.inr (.inr (.inl ⟨hst, .inl rfl, answered ha⟩)))
  | fails c hst ha => exact .inr (.inr (.inr (.inl ⟨hst, .inl rfl, answered ha⟩)))
  | delivers hst hb => exact .inr (.inr (.inr (.inr ⟨hst, rfl, hb⟩)))

/-- A transition is a wait, with no event on the port of `st`, or it changes `st`. -/
theorem Transition.wait_or_st_ne {s t : State} (h : Transition s t) :
    (t = s ∧ ((s.st = .idle ∧ s.cmd = []) ∨ (s.st = .walk ∧ s.memBusy = true) ∨
      (s.st = .rdWait ∧ pendingAnswer s = none) ∨ (s.st = .resp ∧ s.hostBusy = true))) ∨ t.st ≠ s.st := by
  cases h with
  | waits hwait => exact .inl ⟨rfl, hwait⟩
  | starts _ _ hst | answers _ _ _ hst | issues hst | notPresent _ hst | goesOn _ hst | resolves _ _ _ hst
  | fails _ hst | delivers hst => exact .inr (by simp [hst])

/-- On an event the walker does not wait. -/
theorem Transition.st_ne_of_event {s t : State} (h : Transition s t)
    (hevent : (s.st = .idle ∧ s.cmd ≠ []) ∨ (s.st = .walk ∧ s.memBusy = false) ∨
      (s.st = .rdWait ∧ (pendingAnswer s).isSome = true) ∨ (s.st = .resp ∧ s.hostBusy = false)) : t.st ≠ s.st := by
  rcases h.wait_or_st_ne with ⟨-, hwait⟩ | hne
  · rcases hwait with ⟨hst, hw⟩ | ⟨hst, hw⟩ | ⟨hst, hw⟩ | ⟨hst, hw⟩ <;> simp [hst, hw] at hevent
  · exact hne

/-- Where `st` can go from each state. -/
theorem Transition.st_after {s t : State} (h : Transition s t) (hne : t.st ≠ s.st) :
    (s.st = .idle → t.st = .resp ∨ t.st = .walk) ∧ (s.st = .walk → t.st = .rdWait) ∧
      (s.st = .rdWait → t.st = .resp ∨ t.st = .walk) ∧ (s.st = .resp → t.st = .idle) := by
  rcases h.st_change hne with ⟨hs, ht, -⟩ | ⟨hs, ht, -⟩ | ⟨hs, ht, -⟩ | ⟨hs, ht, -⟩ | ⟨hs, ht, -⟩ <;> simp [hs, ht]

/-- Settles O34, transition by transition. -/
theorem sequencerMovesExactlyAsListed : Obligations.SequencerMovesExactlyAsListed := by
  refine ⟨fun s t he h => (transition_of_step he h).st_change, fun s t he h => ?_, fun s t h => ?_,
    fun m s t hm h => (applyMove_registers h hm).1, fun s t he h heq => ?_⟩
  · have hT := transition_of_step he h
    refine ⟨fun hst hc => ?_, fun hst hb => ?_, fun hst ha => ?_, fun hst hb => ?_⟩
    · obtain ⟨hidle, -⟩ := hT.st_after (hT.st_ne_of_event (.inl ⟨hst, hc⟩))
      exact hidle hst
    · obtain ⟨-, hwalk, -⟩ := hT.st_after (hT.st_ne_of_event (.inr (.inl ⟨hst, hb⟩)))
      exact hwalk hst
    · obtain ⟨-, -, hrdWait, -⟩ := hT.st_after (hT.st_ne_of_event (.inr (.inr (.inl ⟨hst, ha⟩))))
      exact hrdWait hst
    · obtain ⟨-, -, -, hresp⟩ := hT.st_after (hT.st_ne_of_event (.inr (.inr (.inr ⟨hst, hb⟩))))
      exact hresp hst
  · cases h
    rfl
  · rcases (transition_of_step he h).wait_or_st_ne with ⟨rfl, -⟩ | hne
    · rfl
    · exact absurd heq hne

/-! ### The latched registers -/

/-- A transition that takes the command word `w` latches it, and the virtual address if `w` is a TRANSLATE; any other
command leaves the walk registers. -/
theorem Transition.latches {s t : State} (h : Transition s t) {w : CmdWord} {rest : List CmdWord} (hst : s.st = .idle)
    (hcmd : s.cmd = w :: rest) :
    t.cmdQ = w ∧ (cmdOp w = 0 → t.vaQ = cmdOpb w) ∧
      (cmdOp w ≠ 0 → t.vaQ = s.vaQ ∧ t.baseQ = s.baseQ ∧ t.lvlQ = s.lvlQ ∧ t.eaQ = s.eaQ) := by
  cases h with
  | waits hwait => simp [hst, hcmd] at hwait
  | starts w' rest' _ hcmd' hop =>
    obtain ⟨rfl, rfl⟩ := List.cons.inj (hcmd.symm.trans hcmd')
    exact ⟨rfl, fun _ => rfl, fun hne => absurd hop hne⟩
  | answers w' rest' r _ hcmd' hop _ =>
    obtain ⟨rfl, rfl⟩ := List.cons.inj (hcmd.symm.trans hcmd')
    exact ⟨rfl, fun h0 => absurd h0 hop, fun _ => ⟨rfl, rfl, rfl, rfl⟩⟩
  | issues hst' | notPresent _ hst' | goesOn _ hst' | resolves _ _ _ hst' | fails _ hst' | delivers hst' =>
    simp [hst] at hst'

/-- A transition that takes no command writes neither `cmd_q` nor `va_q`. -/
theorem Transition.keeps_latched {s t : State} (h : Transition s t) (hno : s.st ≠ .idle ∨ s.cmd = []) :
    t.cmdQ = s.cmdQ ∧ t.vaQ = s.vaQ := by
  cases h with
  | starts w rest hst hcmd => simp [hst, hcmd] at hno
  | answers w rest r hst hcmd => simp [hst, hcmd] at hno
  | waits | issues | notPresent | goesOn | resolves | fails | delivers => exact ⟨rfl, rfl⟩

/-- Settles O36, transition by transition. -/
theorem latchedRegistersChangeOnlyAtAcceptance : Obligations.LatchedRegistersChangeOnlyAtAcceptance := by
  refine ⟨fun s t w rest he h hst hcmd => (transition_of_step he h).latches hst hcmd,
    fun s t he h => (transition_of_step he h).keeps_latched, fun m s t hm h => ?_⟩
  obtain ⟨-, hcmdQ, hvaQ, hbaseQ, hlvlQ, heaQ, -⟩ := applyMove_registers h hm
  exact ⟨hcmdQ, hvaQ, hbaseQ, hlvlQ, heaQ⟩

end Sys2Proof.Machine
end

section
/-! PROOFS. Every address offered on `rd_req` is a slot of a 4 KiB table (20_memory.md R42). -/

namespace Sys2Proof.Machine

/-- The low bits of a multiple of `2 ^ n` are clear. -/
theorem low_field_eq_zero {a : Word} (n : Nat) (h : a.toNat % 2 ^ n = 0) : a.extractLsb' 0 n = 0 := by
  apply BitVec.eq_of_toNat_eq
  rw [BitVec.extractLsb'_toNat, Nat.shiftRight_zero, h]
  exact BitVec.toNat_zero.symm

/-- A physical address has bits 63:52 clear. -/
theorem high_field_eq_zero {a : Word} (h : a.toNat < 2 ^ 52) : a.extractLsb' 52 12 = 0 := by
  apply BitVec.eq_of_toNat_eq
  rw [BitVec.extractLsb'_toNat, Nat.shiftRight_eq_div_pow, Nat.div_eq_of_lt h]
  rfl

/-- Only WALK offers a read, of the address in `ea_q` (20_memory.md R41). -/
theorem rdReqOffered_eq_some {s : State} {a : Word} (h : rdReqOffered s = some a) : s.st = .walk ∧ a = s.eaQ := by
  unfold rdReqOffered at h
  split at h
  · next hst => exact ⟨hst, (Option.some.inj h).symm⟩
  · cases h
  · cases h
  · cases h

/-- The entry address of a level needs no cut of its index (41_bitfield_layout.md R94). -/
theorem entryAddress_idx_eq_or (base va : Word) (L : Level) :
    entryAddress base (idx L va) = (base &&& tableBaseMask) ||| (idx L va * 8) := by
  rw [entryAddress_idx, ← idx_eq_field]

/-- The slot of a level lies 8 bytes per index above its table's base, with no carry out of the table (R95, law 2). -/
theorem entryAddress_idx_toNat (base va : Word) (L : Level) :
    (entryAddress base (idx L va)).toNat = (base &&& tableBaseMask).toNat + (idx L va).toNat * 8 := by
  rw [entryAddress_toNat, Nat.mod_eq_of_lt (idx_lt L va)]

/-- Settles O45: the walk registers make `ea_q` the slot of `va_q`'s index in the table at `base_q`. -/
theorem offeredReadAddressIsASlotOfATable : Obligations.OfferedReadAddressIsASlotOfATable := by
  intro s a hinv hoffered
  obtain ⟨hwalk, rfl⟩ := rdReqOffered_eq_some hoffered
  obtain ⟨-, hea, -⟩ := hinv.registers (walking_of_walk hwalk)
  rw [hea]
  have hindex := idx_lt s.lvlQ s.vaQ
  have hsum := entryAddress_idx_toNat s.baseQ s.vaQ s.lvlQ
  exact ⟨s.baseQ &&& tableBaseMask, idx s.lvlQ s.vaQ,
    low_field_eq_zero 12 (masked_base_aligned _), high_field_eq_zero (masked_base_lt _), by omega,
    entryAddress_idx_eq_or _ _ _,
    low_field_eq_zero 3 (entryAddress_aligned _ _), high_field_eq_zero (entryAddress_lt _ _), by omega, by omega⟩

end Sys2Proof.Machine
end

section
/-! PROOFS. The fields of the command word and their codes (30_encoding.md R63, R84). -/

namespace Sys2Proof

/-- Settles O9: one clause per value of the op field, each by the decoder's lemma for that value. -/
theorem commandWordsDecodeByTheirOpField : Obligations.CommandWordsDecodeByTheirOpField := by
  intro w
  refine ⟨decodeCmd_translate, fun L hop hlvl => ?_, decodeCmd_getPml4Index, decodeCmd_getPdpteIndex,
    decodeCmd_getPdeIndex, decodeCmd_getPteIndex, decodeCmd_getTableBase, decodeCmd_computeEntryAddress⟩
  have hL : Level.ofCode (cmdLvl w) = L := by rw [cmdLvl, hlvl, Level.ofCode_code]
  exact hL ▸ decodeCmd_decodeEntry hop

/-- The three words of R84 are the words built from the fields of their commands. -/
theorem workedWords_eq_cmdWord :
    (0x0000008080604567#64 ++ 0x0000000000100000#64) ++ 0x00#8 = cmdWord 0 0 0x100000 0x8080604567 ∧
    (0#64 ++ 0x0000000000200083#64) ++ 0x11#8 = cmdWord 1 Level.pde.code 0x200083 0 ∧
    (0x1FF#64 ++ 0x5000#64) ++ 0x07#8 = cmdWord 7 0 0x5000 511 := by decide

/-- Settles O8: the words are built from their fields, and the fields of a built word are read back. -/
theorem workedCommandWordsEncodeAndDecode : Obligations.WorkedCommandWordsEncodeAndDecode := by
  obtain ⟨htranslate, hdecodeEntry, hcomputeEntryAddress⟩ := workedWords_eq_cmdWord
  unfold Obligations.WorkedCommandWordsEncodeAndDecode
  rw [htranslate, hdecodeEntry, hcomputeEntryAddress]
  refine ⟨rfl, rfl, rfl, ?_, ?_, ?_⟩
  · simp [decode, decodeCmd_translate]
  · simp [decode, decodeCmd_decodeEntry]
  · simp [decode, decodeCmd_computeEntryAddress]

end Sys2Proof
end

section
/-! PROOFS. The fields of the response word, each read back from its place (30_encoding.md R67). -/

namespace Sys2Proof.Machine

/-- A range of bits that agrees bit by bit with a value is that value. -/
theorem extractLsb'_eq_of_bits {n start len : Nat} {a : BitVec n} {x : BitVec len}
    (h : ∀ i < len, a.getLsbD (start + i) = x.getLsbD i) : a.extractLsb' start len = x := by
  apply BitVec.eq_of_getLsbD_eq
  intro i hi
  rw [BitVec.getLsbD_extractLsb', decide_eq_true hi, Bool.true_and, h i hi]

section
variable {Cause : Type} (r : Response Cause)

@[simp] theorem Response.bits_status : r.bits.extractLsb' 0 2 = r.status.code :=
  extractLsb'_eq_of_bits fun i hi => by
    simp (disch := omega) only [Response.bits_bit, if_pos, Nat.zero_add]

@[simp] theorem Response.bits_size : r.bits.extractLsb' 2 2 = r.size.code :=
  extractLsb'_eq_of_bits fun i hi => by
    simp (disch := omega) only [Response.bits_bit, if_pos, if_neg, Nat.add_sub_cancel_left]

@[simp] theorem Response.bits_level : r.bits.extractLsb' 4 2 = r.level.code :=
  extractLsb'_eq_of_bits fun i hi => by
    simp (disch := omega) only [Response.bits_bit, if_pos, if_neg, Nat.add_sub_cancel_left]

@[simp] theorem Response.bits_reason : r.bits.getLsbD 6 = r.reason.code.getLsbD 0 := r.bits_bit 6

@[simp] theorem Response.bits_present : r.bits.getLsbD 7 = r.present := r.bits_bit 7

@[simp] theorem Response.bits_isLeaf : r.bits.getLsbD 8 = r.isLeaf := r.bits_bit 8

@[simp] theorem Response.bits_reserved : r.bits.extractLsb' 9 7 = 0 :=
  extractLsb'_eq_of_bits fun i hi => by
    simp (disch := omega) only [Response.bits_bit, if_pos, if_neg]
    exact BitVec.getLsbD_zero.symm

@[simp] theorem Response.bits_value : r.bits.extractLsb' 16 64 = r.value :=
  extractLsb'_eq_of_bits fun i hi => by
    simp (disch := omega) only [Response.bits_bit, if_pos, if_neg, Nat.add_sub_cancel_left]

@[simp] theorem Response.bits_flags : r.bits.extractLsb' 80 64 = r.flags :=
  extractLsb'_eq_of_bits fun i hi => by
    simp (disch := omega) only [Response.bits_bit, if_neg, Nat.add_sub_cancel_left]

end

/-- Settles O11, field by field; the codes by the values of their types. -/
theorem responseWordHasItsFieldsInPlace : Obligations.ResponseWordHasItsFieldsInPlace := by
  intro r
  refine ⟨?_, ?_, ?_, ?_, r.bits_present, r.bits_isLeaf, r.bits_reserved, r.bits_value, r.bits_flags⟩
  · rw [r.bits_status]; cases r.status <;> rfl
  · rw [r.bits_size]; cases r.size <;> rfl
  · rw [r.bits_level]; cases r.level <;> rfl
  · rw [r.bits_reason]; cases r.reason <;> rfl

end Sys2Proof.Machine
end

section
/-! PROOFS. The laws of the layout functions (41_bitfield_layout.md R95). -/

namespace Sys2Proof.Machine

/-- An index shifted back to its place is the address cut to the bits of that index. -/
theorem idx_shiftLeft_shift (L : Level) (va : Word) : idx L va <<< shift L = va &&& (indexMask <<< shift L) := by
  apply word_ext
  intro i
  rw [idx, BitVec.shiftLeft_and_distrib, BitVec.getLsbD_and, BitVec.getLsbD_and, BitVec.getLsbD_shiftLeft,
    BitVec.getLsbD_shiftLeft, BitVec.getLsbD_ushiftRight]
  by_cases hi : i.val < shift L
  · simp [hi]
  · rw [Nat.add_sub_cancel' (not_lt.mp hi), decide_eq_false hi, decide_eq_true i.isLt]
    cases va.getLsbD i <;> rfl

/-- The four index ranges and the low 12 bits cover the low 48 bits. -/
theorem indexRanges_cover :
    indexMask <<< shift .pml4 ||| indexMask <<< shift .pdpte ||| indexMask <<< shift .pde ||| indexMask <<< shift .pte |||
      0xFFF = (0x0000FFFFFFFFFFFF : Word) := by decide

/-- Law 1: the shifted indices and the 4 KiB offset rebuild the low 48 bits of an address. -/
theorem indices_rebuild_address (va : Word) :
    (idx .pml4 va <<< shift .pml4) ||| (idx .pdpte va <<< shift .pdpte) ||| (idx .pde va <<< shift .pde) |||
      (idx .pte va <<< shift .pte) ||| (va &&& 0xFFF) = va &&& 0x0000FFFFFFFFFFFF := by
  rw [idx_shiftLeft_shift, idx_shiftLeft_shift, idx_shiftLeft_shift, idx_shiftLeft_shift, ← BitVec.and_or_distrib_left,
    ← BitVec.and_or_distrib_left, ← BitVec.and_or_distrib_left, ← BitVec.and_or_distrib_left, indexRanges_cover]

/-- Law 3, the masks: at each leaf level the frame and the offset split bits 51:0. -/
theorem leafMask_splits {L : Level} {size : PageSize} {mask : Word} (hsize : leafSize L = some size)
    (hmask : addrMask L true = some mask) :
    mask &&& offsetMask size = 0 ∧ mask ||| offsetMask size = 0x000FFFFFFFFFFFFF := by
  cases L <;> cases hsize <;> cases hmask <;> decide

/-- Law 3, the address: a frame and an offset under disjoint masks add up without a carry. -/
theorem leafAddress_toNat {mask : Word} {size : PageSize} (h : mask &&& offsetMask size = 0) (e va : Word) :
    (leafAddress mask size e va).toNat = (e &&& mask).toNat + (va &&& offsetMask size).toNat := by
  have hdisjoint : (e &&& mask) &&& (va &&& offsetMask size) = 0 :=
    calc (e &&& mask) &&& (va &&& offsetMask size)
      _ = (e &&& va) &&& (mask &&& offsetMask size) := by ac_rfl
      _ = (e &&& va) &&& 0 := by rw [h]
      _ = 0 := BitVec.and_zero
  exact or_toNat_of_disjoint hdisjoint

/-- A multiple of 8 has its low three bits clear. -/
theorem and_seven_eq_zero {a : Word} (h : a.toNat % 8 = 0) : a &&& 7 = 0 := by
  apply BitVec.eq_of_toNat_eq
  rw [BitVec.toNat_and]
  exact (Nat.and_two_pow_sub_one_eq_mod a.toNat 3).trans h

/-- Settles O13, law by law. -/
theorem layoutLawsHold : Obligations.LayoutLawsHold := by
  refine ⟨indices_rebuild_address, fun base index => ⟨base_slot_disjoint base _, entryAddress_toNat base index⟩,
    fun L size mask hsize hmask => ?_, fun base index => and_seven_eq_zero (entryAddress_aligned base index)⟩
  obtain ⟨hdisjoint, hcover⟩ := leafMask_splits hsize hmask
  exact ⟨hdisjoint, hcover, leafAddress_toNat hdisjoint⟩

end Sys2Proof.Machine
end

section
/-! PROOFS. The pure commands of the Bitfield Layout (41_bitfield_layout.md R89 to R94). -/

namespace Sys2Proof.Machine

/-- A layout command taken in IDLE ends in RESP with its value in `rsp_q`, and nothing else changes. -/
theorem onCommand_valueResponse {s : State} {v v' : Word} (hst : s.st = .idle) (hv : v = v') :
    onCommand s (respond (valueResponse v)) = .next { s with st := .resp, rspQ := some (valueResponse v') } := by
  rw [onCommand_idle _ hst, hv, respond]

/-! ### The index commands (R89 to R92) -/

/-- A 9-bit field, zero-extended, is at most 511. -/
theorem field_le (va : Word) (lo : Nat) : ((va.extractLsb' lo 9).setWidth 64).toNat ≤ 511 := by
  rw [BitVec.toNat_setWidth_of_le (by decide)]
  exact Nat.le_of_lt_succ (BitVec.isLt _)

/-- Settles O16: each index is its field, and the examples are indices of literals. -/
theorem indexCommandsAnswerTheirField : Obligations.IndexCommandsAnswerTheirField := by
  refine ⟨fun va s hst => ⟨?_, ?_, ?_, ?_⟩, field_le,
    fun w => ⟨decodeCmd_getPml4Index, decodeCmd_getPdpteIndex, decodeCmd_getPdeIndex, decodeCmd_getPteIndex⟩,
    fun s hst => ⟨?_, ?_, ?_, ?_⟩⟩
  · exact onCommand_valueResponse hst (idx_eq_field .pml4 va)
  · exact onCommand_valueResponse hst (idx_eq_field .pdpte va)
  · exact onCommand_valueResponse hst (idx_eq_field .pde va)
  · exact onCommand_valueResponse hst (idx_eq_field .pte va)
  · exact onCommand_valueResponse hst (by decide : idx .pml4 0xFFFF800040001234 = 0x100)
  · exact onCommand_valueResponse hst (by decide : idx .pdpte 0xFFFF800040001234 = 0x1)
  · exact onCommand_valueResponse hst (by decide : idx .pde 0x0000008080604567 = 0x3)
  · exact onCommand_valueResponse hst (by decide : idx .pte 0x0000008080604567 = 0x4)

/-! ### GET_TABLE_BASE (R93) -/

/-- A masked entry keeps bits 51:12 and no other bit. -/
theorem masked_base_bit (e : Word) (i : Nat) :
    (e &&& tableBaseMask).getLsbD i = (decide (12 ≤ i ∧ i ≤ 51) && e.getLsbD i) := by
  by_cases hi : i < 64
  · rw [BitVec.getLsbD_and, tableBaseMask_bit ⟨i, hi⟩, Bool.and_comm]
  · rw [BitVec.getLsbD_of_ge _ _ (not_lt.mp hi), BitVec.getLsbD_of_ge _ _ (not_lt.mp hi), Bool.and_false]

/-- Settles O17, from the bits of the table base mask. -/
theorem getTableBaseAnswersBits51To12 : Obligations.GetTableBaseAnswersBits51To12 := by
  refine ⟨fun entry s hst => onCommand_valueResponse hst rfl, masked_base_bit, fun w => decodeCmd_getTableBase,
    fun s hst => ?_⟩
  exact onCommand_valueResponse hst (by decide : 0x8000000000200063 &&& tableBaseMask = 0x200000)

/-! ### COMPUTE_ENTRY_ADDRESS (R94) -/

/-- Cutting an index to 9 bits is masking it. -/
theorem index_cut_eq_and (index : Word) : (index.setWidth 9).setWidth 64 = index &&& 0x1FF := by
  have hfield : index.setWidth 9 = index.extractLsb' 0 9 := BitVec.setWidth_eq_extractLsb' (by decide)
  rw [hfield, ← shift_and_indexMask, BitVec.ushiftRight_zero, indexMask]

/-- The entry address with its index masked (R94). -/
theorem entryAddress_eq_or (base index : Word) :
    entryAddress base index = (base &&& tableBaseMask) ||| ((index &&& 0x1FF) * 8) := by
  rw [entryAddress, index_cut_eq_and, entrySize]

/-- An index below 512 needs no cut. -/
theorem index_and_of_lt {index : Word} (h : index.toNat < 512) : index &&& 0x1FF = index := by
  rw [← index_cut_eq_and]
  apply BitVec.eq_of_toNat_eq
  simp only [BitVec.toNat_setWidth]
  omega

/-- Settles O18: the value is the entry address, a sum without a carry. -/
theorem computeEntryAddressAnswersTheScaledSlot : Obligations.ComputeEntryAddressAnswersTheScaledSlot := by
  refine ⟨fun base index s hst => ?_, fun w => decodeCmd_computeEntryAddress, fun s hst => ?_⟩
  · have hsum := entryAddress_toNat base index
    refine ⟨entryAddress base index, onCommand_valueResponse hst rfl, entryAddress_eq_or base index, hsum,
      entryAddress_aligned base index, ?_, fun hindex hbase => ?_⟩
    · rw [hsum, tableBaseMask]; omega
    · rw [entryAddress_eq_or, index_and_of_lt hindex, tableBaseMask, hbase]
  · exact onCommand_valueResponse hst (by decide : entryAddress 0x5000 511 = 0x5FF8)

end Sys2Proof.Machine
end

section
/-! PROOFS. The entry decoder and DECODE_ENTRY (42_entry_decoder.md R96 to R103). -/

namespace Sys2Proof.Machine

/-! ### Base and flags (R99 to R101) -/

/-- What a mask takes of an entry and the flags it leaves are the whole entry. -/
theorem masked_or_flagsUnder (mask e : Word) : e &&& mask ||| flagsUnder mask e = e := by
  rw [flagsUnder, ← BitVec.and_or_distrib_left, BitVec.or_not_self, BitVec.and_allOnes]

/-- The flags have no bit the mask takes. -/
theorem masked_and_flagsUnder (mask e : Word) : e &&& mask &&& flagsUnder mask e = 0 :=
  calc e &&& mask &&& (e &&& ~~~mask)
    _ = (e &&& e) &&& (mask &&& ~~~mask) := by ac_rfl
    _ = (e &&& e) &&& 0 := by rw [BitVec.and_not_self]
    _ = 0 := BitVec.and_zero

/-- Settles O14: base and flags are cut by one mask, whichever the kind of the entry selects. -/
theorem decodedBaseAndFlagsSplitTheEntry : Obligations.DecodedBaseAndFlagsSplitTheEntry := fun L e =>
  ⟨masked_or_flagsUnder (kindMask (entryKind L e)) e, masked_and_flagsUnder (kindMask (entryKind L e)) e⟩

/-! ### The decoded fields of each level (R97 to R100) -/

theorem decodeFields_pml4 (e : Word) :
    decodeFields .pml4 e = ⟨e.getLsbD 0, false, e &&& 0x000FFFFFFFFFF000, e &&& 0xFFF0000000000FFF⟩ :=
  decodeFields_of_kind (k := .tablePointer) rfl

theorem decodeFields_pdpte (e : Word) :
    decodeFields .pdpte e = ⟨e.getLsbD 0, e.getLsbD 7,
      if e.getLsbD 7 then e &&& 0x000FFFFFC0000000 else e &&& 0x000FFFFFFFFFF000,
      if e.getLsbD 7 then e &&& 0xFFF000003FFFFFFF else e &&& 0xFFF0000000000FFF⟩ := by
  by_cases h : e.getLsbD 7 = true
  · rw [if_pos h, if_pos h]
    exact decodeFields_of_kind (entryKind_pdpte_leaf h)
  · rw [if_neg h, if_neg h]
    exact decodeFields_of_kind (entryKind_pdpte_table (Bool.eq_false_of_not_eq_true h))

theorem decodeFields_pde (e : Word) :
    decodeFields .pde e = ⟨e.getLsbD 0, e.getLsbD 7,
      if e.getLsbD 7 then e &&& 0x000FFFFFFFE00000 else e &&& 0x000FFFFFFFFFF000,
      if e.getLsbD 7 then e &&& 0xFFF00000001FFFFF else e &&& 0xFFF0000000000FFF⟩ := by
  by_cases h : e.getLsbD 7 = true
  · rw [if_pos h, if_pos h]
    exact decodeFields_of_kind (entryKind_pde_leaf h)
  · rw [if_neg h, if_neg h]
    exact decodeFields_of_kind (entryKind_pde_table (Bool.eq_false_of_not_eq_true h))

theorem decodeFields_pte (e : Word) :
    decodeFields .pte e = ⟨e.getLsbD 0, true, e &&& 0x000FFFFFFFFFF000, e &&& 0xFFF0000000000FFF⟩ :=
  decodeFields_of_kind (k := .leaf4K) rfl

/-! ### DECODE_ENTRY (R103) -/

/-- DECODE_ENTRY taken in IDLE ends in RESP with the decoded fields in `rsp_q`, and nothing else changes. -/
theorem exec_decodeEntry_idle {s : State} {L : Level} {e : Word} {d : DecodedEntry} (hst : s.st = .idle)
    (hd : decodeFields L e = d) :
    exec (.decodeEntry L e) s = .next { s with st := .resp, rspQ := some (decodedResponse L d) } :=
  hd ▸ onCommand_idle _ hst

/-- Settles O19: the response is made of the fields of its level, and the example decodes a literal. -/
theorem decodeEntryAnswersTheDecodedFields : Obligations.DecodeEntryAnswersTheDecodedFields := by
  refine ⟨fun e s hst => ⟨?_, ?_, ?_, ?_⟩, fun w hop => ?_, fun s hst => ?_⟩
  · exact exec_decodeEntry_idle hst (decodeFields_pml4 e)
  · exact exec_decodeEntry_idle hst (decodeFields_pdpte e)
  · exact exec_decodeEntry_idle hst (decodeFields_pde e)
  · exact exec_decodeEntry_idle hst (decodeFields_pte e)
  · exact ⟨Level.ofCode (cmdLvl w), decodeCmd_decodeEntry hop, Level.code_ofCode (cmdLvl w)⟩
  · exact exec_decodeEntry_idle hst (by decide : decodeFields .pde 0x200083 = ⟨true, true, 0x200000, 0x83⟩)

end Sys2Proof.Machine
end

section
/-! PROOFS. A transition (10_state.md R17) is the walker's own step, and the step when no outside move comes before it;
runs go on alike from alike first steps. -/

namespace Sys2Proof.Machine

/-- Each transition is the walker's own step. -/
theorem walkerStep_of_transition {s t : State} (h : Transition s t) : walkerStep s = .next t := by
  cases h with
  | waits hwait =>
    rcases hwait with ⟨hst, hc⟩ | ⟨hst, hb⟩ | ⟨hst, ha⟩ | ⟨hst, hb⟩
    · exact walkerStep_move (nextAction_idle_wait hst hc)
    · exact walkerStep_move (nextAction_walk_wait hst hb)
    · exact walkerStep_move (nextAction_rdWait_wait hst ha)
    · exact walkerStep_move (nextAction_resp_wait hst hb)
  | starts w rest hst hcmd hop =>
    rw [walkerStep_run (nextAction_idle_take hst hcmd), decode, decodeCmd_translate hop]
    exact onCommand_idle (s := takeCommand w rest s) _ hst
  | answers w rest r hst hcmd hop hr =>
    rw [walkerStep_run (nextAction_idle_take hst hcmd)]
    rcases exec_command_idle (s := takeCommand w rest s) w hst with ⟨h0, -⟩ | ⟨-, r', hr', hexec⟩
    · exact absurd h0 hop
    · rw [hexec, Option.some.inj (hr'.symm.trans hr)]
  | issues hst hb => exact walkerStep_move (nextAction_walk_issue hst hb)
  | notPresent e hst ha h0 =>
    rw [walkerStep_run (nextAction_rdWait_entry hst ha)]
    exact exec_entry_notPresent (s := takeAnswer s) hst rfl h0
  | goesOn e hst ha h0 hleaf =>
    rw [walkerStep_run (nextAction_rdWait_entry hst ha)]
    exact exec_entry_table (s := takeAnswer s) hst rfl h0 hleaf
  | resolves e size mask hst ha h0 hleaf hsize hmask =>
    rw [walkerStep_run (nextAction_rdWait_entry hst ha)]
    obtain ⟨size', mask', hsize', hmask', hexec⟩ := exec_entry_leaf (s := takeAnswer s) hst rfl h0 hleaf
    rw [Option.some.inj (hsize'.symm.trans hsize), Option.some.inj (hmask'.symm.trans hmask)] at hexec
    exact hexec
  | fails c hst ha => exact walkerStep_move (nextAction_rdWait_error hst ha)
  | delivers hst hb => exact walkerStep_move (nextAction_resp_deliver hst hb)

/-- With no batch left a transition is the step. -/
theorem step_of_transition {s t : State} (he : s.env = []) (h : Transition s t) : step s = .next t :=
  (step_of_env_nil he).trans (walkerStep_of_transition h)

/-- A step with an empty batch before it is the walker's own. -/
theorem step_of_empty_batch {s : State} {moves : List (List EnvMove)} (h : s.env = [] :: moves) :
    step s = walkerStep { s with env := moves } := by
  simp only [step, stepBy, envTick, h, applyBatch, walkerStep]

/-- Runs whose first steps end in related states go on alike. -/
theorem StepsKeepRelated.run_succ_alike {R : State → State → Prop} (hR : StepsKeepRelated R) (k : Nat) {s s' : State}
    (h : OutcomesAlike R (step s) (step s')) : OutcomesAlike R (run (k + 1) s) (run (k + 1) s') := by
  rcases h with ⟨u, u', hu, hu', hRu⟩ | ⟨r, hu, hu'⟩ <;> simp only [run, hu, hu']
  · exact hR.run_alike k hRu
  · exact .inr ⟨r, rfl, rfl⟩

end Sys2Proof.Machine
end

section
/-! PROOFS. The bits of a command that are never seen (30_encoding.md R64, R65, 43_walker.md R122, R123): words with the
same significant bits start alike, and two states that differ in `cmd_q` and in bits 63:48 of `va_q` alone go on alike. -/

namespace Sys2Proof.Machine

/-! ### Command words with the same significant bits -/

@[simp] theorem cmdOp_clearIgnored (w : CmdWord) : cmdOp (clearIgnored w) = cmdOp w := cmdOp_cmdWord _ _ _ _

@[simp] theorem cmdOpa_clearIgnored (w : CmdWord) : cmdOpa (clearIgnored w) = cmdOpa w := cmdOpa_cmdWord _ _ _ _

theorem cmdLvl_clearIgnored {w : CmdWord} (h : cmdOp w = 1) : cmdLvl (clearIgnored w) = cmdLvl w :=
  (cmdLvl_cmdWord _ _ _ _).trans (if_pos h)

theorem cmdOpb_clearIgnored {w : CmdWord} (h : cmdOp w = 0 ∨ cmdOp w = 7) : cmdOpb (clearIgnored w) = cmdOpb w :=
  (cmdOpb_cmdWord _ _ _ _).trans (if_pos h)

/-- A command does not depend on the reserved bits and the fields it ignores. -/
theorem decodeCmd_clearIgnored (w : CmdWord) : decodeCmd (clearIgnored w) = decodeCmd w := by
  have hop := cmdOp_clearIgnored w
  rcases cmdOp_cases w with h | h | h | h | h | h | h | h <;> rw [h] at hop
  · rw [decodeCmd_translate hop, decodeCmd_translate h, cmdOpa_clearIgnored, cmdOpb_clearIgnored (.inl h)]
  · rw [decodeCmd_decodeEntry hop, decodeCmd_decodeEntry h, cmdOpa_clearIgnored, cmdLvl_clearIgnored h]
  · rw [decodeCmd_getPml4Index hop, decodeCmd_getPml4Index h, cmdOpa_clearIgnored]
  · rw [decodeCmd_getPdpteIndex hop, decodeCmd_getPdpteIndex h, cmdOpa_clearIgnored]
  · rw [decodeCmd_getPdeIndex hop, decodeCmd_getPdeIndex h, cmdOpa_clearIgnored]
  · rw [decodeCmd_getPteIndex hop, decodeCmd_getPteIndex h, cmdOpa_clearIgnored]
  · rw [decodeCmd_getTableBase hop, decodeCmd_getTableBase h, cmdOpa_clearIgnored]
  · rw [decodeCmd_computeEntryAddress hop, decodeCmd_computeEntryAddress h, cmdOpa_clearIgnored,
      cmdOpb_clearIgnored (.inr h)]

theorem significantBits_translate {w : CmdWord} (h : cmdOp w = 0) :
    significantBits w = cmdWord 0 0 (cmdOpa w &&& 0x000FFFFFFFFFF000) (cmdOpb w &&& 0x0000FFFFFFFFFFFF) := if_pos h

theorem significantBits_pure {w : CmdWord} (h : cmdOp w ≠ 0) : significantBits w = clearIgnored w := if_neg h

/-- The op field is significant. -/
@[simp] theorem cmdOp_significantBits (w : CmdWord) : cmdOp (significantBits w) = cmdOp w := by
  by_cases h : cmdOp w = 0
  · rw [significantBits_translate h, cmdOp_cmdWord, h]
  · rw [significantBits_pure h, cmdOp_clearIgnored]

section
variable {w w' : CmdWord} (h : significantBits w = significantBits w')
include h

theorem cmdOp_eq_of_significantBits : cmdOp w = cmdOp w' := by
  rw [← cmdOp_significantBits w, h, cmdOp_significantBits]

/-- Two TRANSLATEs with the same significant bits have the same root base and the same low 48 address bits. -/
theorem operands_of_significantBits (hop : cmdOp w = 0) :
    cmdOpa w &&& tableBaseMask = cmdOpa w' &&& tableBaseMask ∧
      cmdOpb w &&& 0x0000FFFFFFFFFFFF = cmdOpb w' &&& 0x0000FFFFFFFFFFFF := by
  have hop' := (cmdOp_eq_of_significantBits h).symm.trans hop
  rw [significantBits_translate hop, significantBits_translate hop'] at h
  exact ⟨by simpa [tableBaseMask] using congrArg cmdOpa h, by simpa using congrArg cmdOpb h⟩

/-- Two pure command words with the same significant bits are the same command. -/
theorem decodeCmd_eq_of_significantBits (hop : cmdOp w ≠ 0) : decodeCmd w = decodeCmd w' := by
  have hop' := cmdOp_eq_of_significantBits h ▸ hop
  rw [significantBits_pure hop, significantBits_pure hop'] at h
  rw [← decodeCmd_clearIgnored w, h, decodeCmd_clearIgnored]

end

/-! ### Bits 63:48 of a virtual address -/

/-- Every index lies in bits 47:0. -/
theorem idx_low48 (L : Level) (va : Word) : idx L (va &&& 0x0000FFFFFFFFFFFF) = idx L va := by
  have hmask : (0x0000FFFFFFFFFFFF : Word) >>> shift L &&& indexMask = indexMask := by cases L <;> decide
  rw [idx, BitVec.ushiftRight_and_distrib, BitVec.and_assoc, hmask, idx]

/-- Every page offset lies in bits 47:0. -/
theorem leafAddress_low48 (mask : Word) (size : PageSize) (e va : Word) :
    leafAddress mask size e (va &&& 0x0000FFFFFFFFFFFF) = leafAddress mask size e va := by
  have hmask : (0x0000FFFFFFFFFFFF : Word) &&& offsetMask size = offsetMask size := by cases size <;> decide
  rw [leafAddress, BitVec.and_assoc, hmask, leafAddress]

/-! ### The relation, and that every step keeps it -/

/-- The second state is the first but for `cmd_q` and bits 63:48 of `va_q`. -/
def LowAlike (t t' : State) : Prop :=
  ∃ word va, va &&& 0x0000FFFFFFFFFFFF = t.vaQ &&& 0x0000FFFFFFFFFFFF ∧ t' = { t with cmdQ := word, vaQ := va }

/-- The view forgets all in which the two states differ. -/
theorem LowAlike.lowAddressView_eq {t t' : State} (h : LowAlike t t') : lowAddressView t = lowAddressView t' := by
  obtain ⟨word, va, hva, rfl⟩ := h
  by_cases hw : walking t
  · have hview := outsideView_of_walking (s := { t with cmdQ := word, vaQ := va }) hw
    rw [lowAddressView, lowAddressView, outsideView_of_walking hw, hview, hva]
  · have hview := outsideView_of_not_walking (s := { t with cmdQ := word, vaQ := va }) hw
    rw [lowAddressView, lowAddressView, outsideView_of_not_walking hw, hview]

theorem LowAlike.after_enterLevel {t t' : State} (h : LowAlike t t') (L : Level) (base : Word) :
    LowAlike (enterLevel L base t) (enterLevel L base t') := by
  obtain ⟨word, va, hva, rfl⟩ := h
  have hidx : idx L va = idx L t.vaQ := by rw [← idx_low48 L va, hva, idx_low48]
  exact ⟨word, va, hva, by rw [enterLevel, enterLevel, hidx]⟩

theorem LowAlike.applyMove_alike (m : EnvMove) {t t' : State} (h : LowAlike t t') :
    OutcomesAlike LowAlike (applyMove m t) (applyMove m t') := by
  obtain ⟨word, va, hva, rfl⟩ := h
  rcases m with w | b | b | r | ⟨a, b⟩ | ⟨a, _ | c⟩ | _
  case answer =>
    have hm : mayAnswer { t with cmdQ := word, vaQ := va } = mayAnswer t := rfl
    simp only [applyMove, hm]
    split
    · exact .of_next ⟨word, va, hva, rfl⟩
    · exact .inr ⟨_, rfl, rfl⟩
  case reset => exact .of_next ⟨_, _, rfl, rfl⟩
  all_goals exact .of_next ⟨word, va, hva, rfl⟩

/-- Whatever transition one of the states makes, the other makes too. -/
theorem LowAlike.transition {t t' u : State} (h : LowAlike t t') (hT : Transition t u) :
    ∃ u', Transition t' u' ∧ LowAlike u u' := by
  obtain ⟨word, va, hva, rfl⟩ := h
  cases hT with
  | waits hwait => exact ⟨_, .waits hwait, word, va, hva, rfl⟩
  | starts w rest hst hcmd hop => exact ⟨_, .starts w rest hst hcmd hop, w, cmdOpb w, rfl, rfl⟩
  | answers w rest r hst hcmd hop hr => exact ⟨_, .answers w rest r hst hcmd hop hr, w, va, hva, rfl⟩
  | issues hst hb => exact ⟨_, .issues hst hb, word, va, hva, rfl⟩
  | notPresent e hst ha h0 => exact ⟨_, .notPresent e hst ha h0, word, va, hva, rfl⟩
  | goesOn e hst ha h0 hleaf =>
    have hanswer : LowAlike (takeAnswer t) (takeAnswer { t with cmdQ := word, vaQ := va }) := ⟨word, va, hva, rfl⟩
    exact ⟨_, .goesOn e hst ha h0 hleaf, hanswer.after_enterLevel _ _⟩
  | resolves e size mask hst ha h0 hleaf hsize hmask =>
    refine ⟨_, .resolves e size mask hst ha h0 hleaf hsize hmask, word, va, hva, ?_⟩
    rw [← leafAddress_low48 mask size e va, hva, leafAddress_low48]
    rfl
  | fails c hst ha => exact ⟨_, .fails c hst ha, word, va, hva, rfl⟩
  | delivers hst hb => exact ⟨_, .delivers hst hb, word, va, hva, rfl⟩

/-- No step tells states apart that differ in the unseen bits alone. -/
theorem stepsKeepLowAlike : StepsKeepRelated LowAlike where
  sameMoves := fun ⟨_, _, _, ht'⟩ => ht' ▸ rfl
  batchTaken := fun _ ⟨word, va, hva, ht'⟩ => ⟨word, va, hva, ht' ▸ rfl⟩
  move m _ _ h := h.applyMove_alike m
  ownStep {t _} h := by
    obtain ⟨u, hu, hmove⟩ := walkerStep_move_exists t
    obtain ⟨u', hT', halike⟩ := h.transition (transition_of_walkerMove hmove)
    rw [hu, walkerStep_of_transition hT']
    exact .of_next halike

/-! ### The step that takes the word -/

/-- Every pure command word has a response. -/
theorem pureResponse_of_op_ne_zero {w : CmdWord} (hop : cmdOp w ≠ 0) : ∃ r, pureResponse (decode (.cmd w)) = some r := by
  rcases exec_command_idle (s := State.reset) w rfl with ⟨h0, -⟩ | ⟨-, r, hr, -⟩
  · exact absurd h0 hop
  · exact ⟨r, hr⟩

/-- In IDLE words with the same significant bits are taken to states that differ in `cmd_q` and bits 63:48 of `va_q`
alone: a TRANSLATE cuts its root to the base, and a pure command answers its one response. -/
theorem walkerStep_takes_alike {w w' : CmdWord} (h : significantBits w = significantBits w') {t : State}
    (hst : t.st = .idle) (rest : List CmdWord) :
    OutcomesAlike LowAlike (walkerStep { t with cmd := w :: rest }) (walkerStep { t with cmd := w' :: rest }) := by
  have hop' := cmdOp_eq_of_significantBits h
  by_cases hop : cmdOp w = 0
  · obtain ⟨hroot, hva⟩ := operands_of_significantBits h hop
    rw [walkerStep_of_transition (.starts (s := { t with cmd := w :: rest }) w rest hst rfl hop),
      walkerStep_of_transition (.starts (s := { t with cmd := w' :: rest }) w' rest hst rfl (hop' ▸ hop)),
      startWalk, startWalk, cr3TableBaseMask, hroot]
    exact .of_next (LowAlike.after_enterLevel ⟨w', cmdOpb w', hva.symm, rfl⟩ _ _)
  · obtain ⟨r, hr⟩ := pureResponse_of_op_ne_zero hop
    have hr' : pureResponse (decode (.cmd w')) = some r :=
      (congrArg pureResponse (decodeCmd_eq_of_significantBits h hop)).symm.trans hr
    rw [walkerStep_of_transition (.answers (s := { t with cmd := w :: rest }) w rest r hst rfl hop hr),
      walkerStep_of_transition (.answers (s := { t with cmd := w' :: rest }) w' rest r hst rfl (hop' ▸ hop) hr')]
    exact .of_next ⟨w', t.vaQ, rfl, rfl⟩

/-- Settles O52: the step that takes the word ends in states that are alike, and every later step keeps them so. -/
theorem ignoredBitsOfACommandAreNeverSeen : Obligations.IgnoredBitsOfACommandAreNeverSeen := by
  intro k s w w' h
  have hfirst := walkerStep_takes_alike h (t := { s with st := .idle, env := s.env.tail }) rfl s.cmd.tail
  refine seenBy_eq_of_alike (fun _ _ hR => hR.lowAddressView_eq) (stepsKeepLowAlike.run_succ_alike k ?_)
  rw [step_of_empty_batch rfl, step_of_empty_batch rfl]
  exact hfirst

end Sys2Proof.Machine
end

section
/-! PROOFS. The walk, instruction by instruction (43_walker.md R110 to R119). -/

namespace Sys2Proof.Machine

/-- The entry address over a base cut to bits 51:12 (R111). -/
theorem entryAddress_masked_base (base va : Word) (L : Level) :
    entryAddress (base &&& tableBaseMask) (idx L va) =
      (base &&& tableBaseMask) ||| ((va.extractLsb' (shift L) 9).setWidth 64 * 8) := by
  rw [entryAddress_idx, masked_base_idem]

/-- Settles O21: the acceptance of TRANSLATE is `startWalk`, its index a field of `va`. -/
theorem translateStartsTheWalk : Obligations.TranslateStartsTheWalk := by
  intro root va s hst
  refine (onCommand_idle (startWalk root va) hst).trans ?_
  rw [startWalk, enterLevel, cr3TableBaseMask, entryAddress_masked_base]
  rfl

/-- Settles O24: at each level the decoder picks the class NP, and each class NP raises its fault where it is taken. -/
theorem notPresentEntryEndsTheWalk : Obligations.NotPresentEntryEndsTheWalk := by
  refine ⟨fun L e s h0 hst hL => exec_entry_notPresent hst hL h0, fun e s hst => ?_⟩
  exact ⟨onEntry_taken _ hst, onEntry_taken _ hst, onEntry_taken _ hst, onEntry_taken _ hst⟩

/-- At a level that has leaves an entry is one if bit 7 is set or the level is PTE (42_entry_decoder.md R98). -/
theorem isLeafAt_of_leafSize {L : Level} {size : PageSize} {e : Word} (hsize : leafSize L = some size)
    (h7 : L ≠ .pte → e.getLsbD 7 = true) : isLeafAt L e = true := by
  cases L with
  | pml4 => cases hsize
  | pdpte => exact h7 (by decide)
  | pde => exact h7 (by decide)
  | pte => rfl

/-- Settles O27: the leaf's class answers `leafAddress`, whose two parts share no bit and end below bit 52. -/
theorem resolvedAddressIsFramePlusOffset : Obligations.ResolvedAddressIsFramePlusOffset := by
  intro L size mask e s hsize hmask hst hL h0 h7
  obtain ⟨size', mask', hsize', hmask', hexec⟩ := exec_entry_leaf hst hL h0 (isLeafAt_of_leafSize hsize h7)
  obtain rfl := Option.some.inj (hsize.symm.trans hsize')
  obtain rfl := Option.some.inj (hmask.symm.trans hmask')
  obtain ⟨hdisjoint, -⟩ := leafMask_splits hsize hmask
  have hlt : (leafAddress mask size e s.vaQ).toNat < 2 ^ 52 := by
    obtain ⟨k, rfl⟩ := kind_of_leaf_mask hmask
    exact leafAddress_lt k size e s.vaQ
  exact ⟨_, hexec, rfl, rfl, rfl, leafAddress_toNat hdisjoint e s.vaQ, hlt⟩

/-- Settles O23: the read error is one transition to RESP, the delivery the next. -/
theorem readErrorEndsTheWalkAtOnce : Obligations.ReadErrorEndsTheWalkAtOnce := by
  intro s c henv hst hanswer
  have hpending : pendingAnswer s = some (.err c) := by rw [pendingAnswer, hanswer]
  have hfails := step_of_transition henv (.fails c hst hpending)
  refine ⟨hfails, fun hhost => ?_⟩
  have hdelivers := step_of_transition
    (s := respond (faultResponse s.lvlQ .readError (some c)) (takeAnswer s)) henv (.delivers rfl hhost)
  simp only [run, hfails, hdelivers]
  rfl

end Sys2Proof.Machine
end

section
/-! PROOFS. The pure commands never fail (60_exceptions.md R135). -/

namespace Sys2Proof.Machine

/-- The response of a pure command is a VALUE with no cause: only DECODE_ENTRY fills the decoded fields too. -/
theorem pureResponse_is_value {i : Instr} {r : Response} (h : pureResponse i = some r) :
    r.status = .value ∧ r.cause = none := by
  cases i with
  | decodeEntry => cases h; exact ⟨rfl, rfl⟩
  | getPml4Index | getPdpteIndex | getPdeIndex | getPteIndex | getTableBase | computeEntryAddress =>
    cases h; exact ⟨rfl, rfl⟩
  | _ => cases h

/-- Two transitions with no outside move before either are two steps. -/
theorem run_two_of_transitions {s t u : State} (hs : s.env = []) (hst : Transition s t) (ht : t.env = [])
    (htu : Transition t u) : run 2 s = .next u := by
  simp only [run, step_of_transition hs hst, step_of_transition ht htu]

/-- Settles O20: the word's response is a VALUE, its answer is one transition to RESP, the delivery the next. -/
theorem pureCommandsAnswerWithoutReading : Obligations.PureCommandsAnswerWithoutReading := by
  intro w rest s hop henv hst hcmd hhost
  obtain ⟨r, hr⟩ := pureResponse_of_op_ne_zero hop
  obtain ⟨hvalue, hcause⟩ := pureResponse_is_value hr
  have hanswers : Transition s (respond r (takeCommand w rest s)) := .answers w rest r hst hcmd hop hr
  exact ⟨r, hvalue, hcause, step_of_transition henv hanswers,
    run_two_of_transitions henv hanswers henv (.delivers rfl hhost)⟩

end Sys2Proof.Machine
end

section
/-! PROOFS. The step completes unless the batch before it holds an answer to no outstanding read
(93_implementation_defined.md I9, I17), and what the asserted reset leaves (70_reset_and_hazards.md R151). -/

namespace Sys2Proof.Machine

/-! ### Answers to reads -/

section
variable {Cause : Type}

/-- An answer is due in RD_WAIT with none offered yet (20_memory.md R41). -/
theorem mayAnswer_iff (s : State Cause) : mayAnswer s = true ↔ s.st = .rdWait ∧ s.rdRsp = none := by
  simp [mayAnswer]

theorem applyMove_answer_due {s : State Cause} (h : mayAnswer s = true) (r : ReadResp Cause) :
    applyMove (.answer r) s = .next { s with rdRsp := some r } := if_pos h

theorem applyMove_answer_unsolicited {s : State Cause} (h : mayAnswer s = false) (r : ReadResp Cause) :
    applyMove (.answer r) s = .refused .unsolicitedReadResponse := if_neg (by simp [h])

/-- A batch is made in order. -/
theorem applyBatch_append {pre : List (EnvMove Cause)} {s u : State Cause} (h : applyBatch pre s = .next u)
    (post : List (EnvMove Cause)) : applyBatch (pre ++ post) s = applyBatch post u := by
  induction pre generalizing s with
  | nil => cases h; rfl
  | cons m rest ih =>
    rcases applyMove_outcome m s with ⟨v, hv⟩ | ⟨hv, -⟩ <;> simp only [applyBatch, List.cons_append, hv] at h ⊢
    · exact ih h
    · cases h

/-- A batch is refused where it comes to an answer that is not due. -/
theorem applyBatch_unsolicited {pre : List (EnvMove Cause)} {s u : State Cause} (h : applyBatch pre s = .next u)
    (hu : mayAnswer u = false) (r : ReadResp Cause) (post : List (EnvMove Cause)) :
    applyBatch (pre ++ .answer r :: post) s = .refused .unsolicitedReadResponse := by
  rw [applyBatch_append h]
  simp only [applyBatch, applyMove_answer_unsolicited hu]

/-- A batch is made to its end unless it comes to an answer that is not due. -/
theorem applyBatch_outcome (batch : List (EnvMove Cause)) (s : State Cause) :
    (∃ t, applyBatch batch s = .next t) ∨
      ∃ pre r post u, batch = pre ++ .answer r :: post ∧ applyBatch pre s = .next u ∧ mayAnswer u = false := by
  induction batch generalizing s with
  | nil => exact .inl ⟨s, rfl⟩
  | cons m rest ih =>
    rcases applyMove_outcome m s with ⟨v, hv⟩ | ⟨hv, r, rfl⟩
    · rcases ih v with ⟨t, ht⟩ | ⟨pre, r, post, u, rfl, hu, hno⟩
      · exact .inl ⟨t, by simpa only [applyBatch, hv] using ht⟩
      · exact .inr ⟨m :: pre, r, post, u, rfl, by simpa only [applyBatch, hv] using hu, hno⟩
    · refine .inr ⟨[], r, rest, s, rfl, rfl, ?_⟩
      by_contra hdue
      rw [applyMove_answer_due (by simpa using hdue)] at hv
      cases hv

end

/-! ### The step -/

theorem step_of_envTick {s u : State} (h : envTick s = .next u) : step s = walkerStep u := by
  simp only [step, stepBy, h, walkerStep]

theorem step_of_batch_refused {s : State} {batch : List EnvMove} {rest : List (List EnvMove)} {r : Refusal}
    (he : s.env = batch :: rest) (h : applyBatch batch { s with env := rest } = .refused r) : step s = .refused r := by
  simp only [step, stepBy, envTick, he, h]

/-- The walker's own step always answers a next state, so a step does once its batch is made. -/
theorem step_completes_of_envTick {s u : State} (h : envTick s = .next u) : ∃ t, step s = .next t := by
  obtain ⟨t, ht, -⟩ := walkerStep_move_exists u
  exact ⟨t, (step_of_envTick h).trans ht⟩

/-- Settles O32: with no batch to make the step is the walker's own. -/
theorem everyStepWithoutMovesCompletes : Obligations.EveryStepWithoutMovesCompletes := fun _ he =>
  step_completes_of_envTick (envTick_nil he)

/-- A step answers a next state, or its batch comes to an answer that is not due. -/
theorem step_outcome (s : State) :
    (∃ t, step s = .next t) ∨
      ∃ pre r post rest u, s.env = (pre ++ EnvMove.answer r :: post) :: rest ∧
        applyBatch pre { s with env := rest } = .next u ∧ mayAnswer u = false := by
  cases he : s.env with
  | nil => exact .inl (step_completes_of_envTick (envTick_nil he))
  | cons batch rest =>
    rcases applyBatch_outcome batch { s with env := rest } with ⟨u, hu⟩ | ⟨pre, r, post, u, rfl, hu, hno⟩
    · exact .inl (step_completes_of_envTick (u := u) (by simp only [envTick, he, hu]))
    · exact .inr ⟨pre, r, post, rest, u, rfl, hu, hno⟩

/-- A step whose batch comes to an answer that is not due is refused. -/
theorem step_unsolicited {s u : State} {pre post : List EnvMove} {r : ReadResp} {rest : List (List EnvMove)}
    (he : s.env = (pre ++ EnvMove.answer r :: post) :: rest) (hu : applyBatch pre { s with env := rest } = .next u)
    (hno : mayAnswer u = false) : step s = .refused .unsolicitedReadResponse :=
  step_of_batch_refused he (applyBatch_unsolicited hu hno r post)

/-- Settles O33, from the outcome of the batch. -/
theorem onlyAnUnsolicitedAnswerIsRefused : Obligations.OnlyAnUnsolicitedAnswerIsRefused := by
  refine ⟨fun s => ?_, fun s => ⟨fun h => ?_, ?_⟩, mayAnswer_iff, fun s r hst ha => ?_, fun s r hno => ?_⟩
  · rcases step_outcome s with hnext | ⟨pre, r, post, rest, u, he, hu, hno⟩
    · exact .inl hnext
    · exact .inr (step_unsolicited he hu hno)
  · rcases step_outcome s with ⟨t, ht⟩ | hunsolicited
    · rw [h] at ht
      cases ht
    · exact hunsolicited
  · rintro ⟨pre, r, post, rest, u, he, hu, hno⟩
    exact step_unsolicited he hu hno
  · exact applyMove_answer_due ((mayAnswer_iff s).mpr ⟨hst, ha⟩) r
  · refine applyMove_answer_unsolicited (Bool.eq_false_iff.mpr fun hdue => ?_) r
    obtain ⟨hst, ha⟩ := (mayAnswer_iff s).mp hdue
    exact hno.elim (absurd hst) (absurd ha)

/-! ### The words taken -/

/-- Settles O29: the word offered first is what the walker's own step runs. -/
theorem stepRunsTheCommandTaken : Obligations.StepRunsTheCommandTaken := fun _ _ _ he hst hcmd =>
  (step_of_env_nil he).trans (walkerStep_run (nextAction_idle_take hst hcmd))

theorem pendingAnswer_of_offered {Cause : Type} {s : State Cause} {r : ReadResp Cause} (h : s.rdRsp = some r) :
    pendingAnswer s = some r := by
  simp only [pendingAnswer, h]

theorem pendingAnswer_of_image {Cause : Type} {s : State Cause} (h : s.rdRsp = none) (hb : s.memBusy = false) :
    pendingAnswer s = some (memoryAnswer s s.eaQ) := by
  simp [pendingAnswer, h, hb]

/-- Settles O30: the entry offered is what the walker's own step runs. -/
theorem stepRunsTheEntryTaken : Obligations.StepRunsTheEntryTaken := fun _ _ he hst ha =>
  (step_of_env_nil he).trans (walkerStep_run (nextAction_rdWait_entry hst (pendingAnswer_of_offered ha)))

/-- A read that is answered from the image goes on as if that answer had been offered: taking it empties `rd_rsp`
either way. -/
theorem walkerStep_of_image {s : State} (hst : s.st = .rdWait) (ha : s.rdRsp = none) (hb : s.memBusy = false) :
    walkerStep s = walkerStep { s with rdRsp := some (memoryAnswer s s.eaQ) } := by
  have himage := pendingAnswer_of_image ha hb
  have hoffered : pendingAnswer { s with rdRsp := some (memoryAnswer s s.eaQ) } = some (memoryAnswer s s.eaQ) :=
    pendingAnswer_of_offered rfl
  rcases hr : memoryAnswer s s.eaQ with e | c <;> rw [hr] at himage hoffered
  · rw [walkerStep_run (nextAction_rdWait_entry hst himage),
      walkerStep_run (nextAction_rdWait_entry (s := { s with rdRsp := some (.ok e) }) hst hoffered)]
    rfl
  · rw [walkerStep_move (nextAction_rdWait_error hst himage),
      walkerStep_move (nextAction_rdWait_error (s := { s with rdRsp := some (.err c) }) hst hoffered)]
    rfl

/-- Settles O31: the image's answer is the failing cause or the word, and it is taken like an offered one. -/
theorem imageAnswersAnOpenRead : Obligations.ImageAnswersAnOpenRead := by
  intro s he hst ha hb
  have hstep {r : ReadResp} (hr : memoryAnswer s s.eaQ = r) : step s = step { s with rdRsp := some r } := by
    rw [step_of_env_nil he, step_of_env_nil (s := { s with rdRsp := some r }) he, walkerStep_of_image hst ha hb, hr]
  exact ⟨fun c hc => hstep (by simp only [memoryAnswer, hc]), fun hnone => hstep (by simp only [memoryAnswer, hnone])⟩

/-! ### Reset -/

/-- Settles O1: the fields of the reset state (10_state.md R32). -/
theorem resetStateIsIdleAndOffersNothing : Obligations.ResetStateIsIdleAndOffersNothing :=
  ⟨rfl, rfl, rfl, rfl, rfl, rfl⟩

/-- Settles O4: the asserted reset names each field, and in IDLE the next word is taken. -/
theorem assertedResetDropsTheCommandInFlight : Obligations.AssertedResetDropsTheCommandInFlight := fun s =>
  ⟨resetWalker s, rfl, rfl, rfl, rfl, rfl, rfl, rfl, rfl, rfl, rfl, rfl, rfl, rfl, rfl, rfl,
    fun w rest he hcmd => stepRunsTheCommandTaken (resetWalker s) w rest he rfl hcmd⟩

end Sys2Proof.Machine
end

section
/-! PROOFS. The invariant of the machine: it holds after reset, and every outside move and every transition keeps it. -/

namespace Sys2Proof.Machine

/-! ### Response words have their form (30_encoding.md R67) -/

theorem valueResponse_wf (v : Word) : (valueResponse v : Response).wf = true := by
  simp [Response.wf, valueResponse]

/-- Base and flags rebuild the entry, so they are the decoded fields of the word they make up. -/
theorem decodedResponse_wf (L : Level) (e : Word) : (decodedResponse L (decodeFields L e) : Response).wf = true := by
  have hentry : (decodeFields L e).base ||| (decodeFields L e).flags = e := masked_or_flagsUnder _ e
  have hform : (decodedResponse L (decodeFields L e) : Response).wf =
      (decodedResponse L (decodeFields L e) == (valueResponse (decodeFields L e).base : Response) ||
        decodedResponse L (decodeFields L e) ==
          (decodedResponse L (decodeFields L ((decodeFields L e).base ||| (decodeFields L e).flags)) : Response)) := rfl
  rw [hform, hentry, beq_self_eq_true, Bool.or_true]

theorem pureResponse_wf {i : Instr} {r : Response} (h : pureResponse i = some r) : r.wf = true := by
  cases i with
  | decodeEntry L e => cases h; exact decodedResponse_wf L e
  | getPml4Index | getPdpteIndex | getPdeIndex | getPteIndex | getTableBase | computeEntryAddress =>
    cases h; exact valueResponse_wf _
  | _ => cases h

theorem resolvedResponse_wf {L : Level} {size : PageSize} {mask : Word} (hsize : leafSize L = some size)
    (hmask : addrMask L true = some mask) (e va flags : Word) :
    (resolvedResponse (leafAddress mask size e va) size L flags : Response).wf = true := by
  obtain ⟨k, rfl⟩ := kind_of_leaf_mask hmask
  have hlt : (leafAddress (kindMask k) size e va).toNat < spaceBytes := leafAddress_lt k size e va
  simp [Response.wf, resolvedResponse, hsize, hlt]

theorem notPresentResponse_wf (L : Level) : (faultResponse L .notPresent none : Response).wf = true := by
  simp [Response.wf, faultResponse]

theorem readErrorResponse_wf (L : Level) (c : ReadCause) :
    (faultResponse L .readError (some c) : Response).wf = true := by
  simp [Response.wf, faultResponse]

/-! ### The walk registers (10_state.md R18 to R21) -/

/-- The acceptance of a TRANSLATE writes registers in order. -/
theorem registersOk_startWalk {w : CmdWord} (hop : cmdOp w = 0) (rest : List CmdWord) (s : State) :
    RegistersOk (startWalk (cmdOpa w) (cmdOpb w) (takeCommand w rest s)) :=
  ⟨masked_base_idem _, rfl, cmdOpa w, decodeCmd_translate hop, fun _ => rfl⟩

/-- No level comes before PML4. -/
theorem nextLevel_ne_pml4 (L : Level) : nextLevel L ≠ .pml4 := by cases L <;> decide

/-- The next level keeps the latched command and virtual address, and its base is masked. -/
theorem RegistersOk.after_enterLevel {s : State} (h : RegistersOk s) (L : Level) (e : Word) :
    RegistersOk (enterLevel (nextLevel L) (e &&& tableBaseMask) s) := by
  obtain ⟨-, -, root, hcmd, -⟩ := h
  exact ⟨masked_base_idem e, rfl, root, hcmd, fun hL => absurd hL (nextLevel_ne_pml4 L)⟩

/-- An entry address may be offered on `rd_req` (20_memory.md R42). -/
theorem readableAddress_entryAddress (base index : Word) : readableAddress (entryAddress base index) :=
  ⟨entryAddress_aligned base index, entryAddress_lt base index⟩

/-! ### The operations -/

section
variable {s : State}

theorem WalkerInv.rspQ_eq_none (h : WalkerInv s) (hst : s.st ≠ .resp) : s.rspQ = none := by
  simpa using mt h.responseHeld.mpr hst

theorem WalkerInv.rdRsp_eq_none (h : WalkerInv s) (hst : s.st ≠ .rdWait) : s.rdRsp = none := by
  simpa using mt h.answerOutstanding hst

theorem WalkerInv.after_respond (h : WalkerInv s) {r : Response} (hr : r.wf = true) (ha : s.rdRsp = none) :
    WalkerInv (respond r s) :=
  { h with
    registers := fun hw => absurd hw (not_walking_of_resp rfl)
    responseHeld := by simp
    responseForm := fun r' hr' => by obtain rfl := Option.some.inj hr'; exact hr
    answerOutstanding := by simp [ha] }

/-- A response is given at the end of a walk with the answer taken. -/
theorem WalkerInv.after_answered (h : WalkerInv s) {r : Response} (hr : r.wf = true) :
    WalkerInv (respond r (takeAnswer s)) :=
  WalkerInv.after_respond (s := takeAnswer s) { h with answerOutstanding := by simp } hr rfl

theorem WalkerInv.after_deliverResponse (h : WalkerInv s) (hst : s.st = .resp) : WalkerInv (deliverResponse s) :=
  { h with
    registers := fun hw => absurd hw (not_walking_of_idle rfl)
    responseHeld := by simp
    responseForm := by simp
    answerOutstanding := by simp [h.rdRsp_eq_none (by simp [hst])]
    responseLog := fun r hr => by
      rcases List.mem_append.mp hr with hr | hr
      · exact h.responseLog r hr
      · exact h.responseForm r (by simpa using hr) }

theorem WalkerInv.after_enterLevel (h : WalkerInv s) (hst : s.st = .rdWait) (e : Word) :
    WalkerInv (enterLevel (nextLevel s.lvlQ) (e &&& tableBaseMask) (takeAnswer s)) :=
  { h with
    registers := fun _ =>
      RegistersOk.after_enterLevel (s := takeAnswer s) (h.registers (walking_of_rdWait hst)) s.lvlQ e
    responseHeld := by simp [h.rspQ_eq_none (by simp [hst])]
    answerOutstanding := by simp }

theorem WalkerInv.after_issueRead (h : WalkerInv s) (hst : s.st = .walk) : WalkerInv (issueRead s) := by
  obtain ⟨-, hea, -⟩ := h.registers (walking_of_walk hst)
  exact { h with
    registers := fun _ => h.registers (walking_of_walk hst)
    responseHeld := by simp [h.rspQ_eq_none (by simp [hst])]
    answerOutstanding := fun _ => rfl
    readLog := fun a ha => by
      rcases List.mem_append.mp ha with ha | ha
      · exact h.readLog a ha
      · obtain rfl := List.mem_singleton.mp ha
        exact hea ▸ readableAddress_entryAddress _ _ }

theorem WalkerInv.after_startWalk (h : WalkerInv s) (hst : s.st = .idle) {w : CmdWord} (hop : cmdOp w = 0)
    (rest : List CmdWord) : WalkerInv (startWalk (cmdOpa w) (cmdOpb w) (takeCommand w rest s)) :=
  { h with
    registers := fun _ => registersOk_startWalk hop rest s
    responseHeld := by simp [h.rspQ_eq_none (by simp [hst])]
    answerOutstanding := by simp [h.rdRsp_eq_none (by simp [hst])] }

theorem WalkerInv.after_resetWalker (h : WalkerInv s) : WalkerInv (resetWalker s) :=
  { h with
    registers := fun hw => absurd hw (not_walking_of_idle rfl)
    responseHeld := by simp
    responseForm := by simp
    answerOutstanding := by simp }

/-! ### The steps -/

theorem WalkerInv.move {t : State} (h : WalkerInv s) {m : EnvMove} (hm : applyMove m s = .next t) : WalkerInv t := by
  rcases m with w | b | b | r | ⟨a, b⟩ | ⟨a, _ | c⟩ | _
  case answer =>
    simp only [applyMove] at hm
    split at hm
    · next hdue =>
      cases hm
      obtain ⟨hst, -⟩ := (mayAnswer_iff s).mp hdue
      exact { h with answerOutstanding := fun _ => hst }
    · cases hm
  all_goals cases hm
  case command | hostBusy | memBusy => exact { h with }
  case writeMem => exact { h with memory := Memory.writeByte_wf b h.memory a.isLt }
  case failAt.none => exact { h with failing := failingWf_removeAt _ h.failing }
  case failAt.some => exact { h with failing := failingWf_insertAt c h.failing a.isLt }
  case reset => exact h.after_resetWalker

theorem WalkerInv.transition {t : State} (h : WalkerInv s) (hT : Transition s t) : WalkerInv t := by
  cases hT with
  | waits => exact h
  | starts w rest hst hcmd hop => exact h.after_startWalk hst hop rest
  | answers w rest r hst hcmd hop hr =>
    exact WalkerInv.after_respond (s := takeCommand w rest s)
      { h with registers := fun hw => absurd hw (not_walking_of_idle hst) }
      (pureResponse_wf hr) (h.rdRsp_eq_none (by simp [hst]))
  | issues hst hb => exact h.after_issueRead hst
  | notPresent e hst ha h0 => exact h.after_answered (notPresentResponse_wf _)
  | goesOn e hst ha h0 hleaf => exact h.after_enterLevel hst e
  | resolves e size mask hst ha h0 hleaf hsize hmask => exact h.after_answered (resolvedResponse_wf hsize hmask _ _ _)
  | fails c hst ha => exact h.after_answered (readErrorResponse_wf _ c)
  | delivers hst hb => exact h.after_deliverResponse hst

end

/-- Settles O3: every outside move keeps the invariant, and so does every transition. -/
theorem everyStepKeepsTheInvariant : Obligations.EveryStepKeepsTheInvariant := by
  intro s t hinv h
  exact step_keeps h hinv (fun u rest hu => { hu with }) (fun m u v hu hm => hu.move hm)
    fun u v hu hmove => hu.transition (transition_of_walkerMove hmove)

/-- Settles O2: after reset nothing is held, offered or recorded, and the memory is empty. -/
theorem resetStateMeetsTheInvariant : Obligations.ResetStateMeetsTheInvariant where
  registers hw := absurd hw (not_walking_of_idle rfl)
  responseHeld := by decide
  responseForm _ hr := nomatch hr
  answerOutstanding ha := nomatch ha
  readLog _ ha := nomatch ha
  responseLog _ hr := nomatch hr
  memory := rfl
  failing := rfl

end Sys2Proof.Machine
end

section
/-! PROOFS. Encoding and decoding of the words of both ports (30_encoding.md sections 2 and 5). -/

namespace Sys2Proof

/-! ### The entry classes by their bits (R72, R78) -/

section
variable {e : Word}

theorem decode_pml4eNp (h0 : e.getLsbD 0 = false) : decode (.entry .pml4 e) = .pml4eNp e := by
  simp only [decode, decodeEntryAt, h0, Bool.false_eq_true, if_false]

theorem decode_pdpteNp (h0 : e.getLsbD 0 = false) : decode (.entry .pdpte e) = .pdpteNp e := by
  simp only [decode, decodeEntryAt, h0, Bool.false_eq_true, if_false]

theorem decode_pdeNp (h0 : e.getLsbD 0 = false) : decode (.entry .pde e) = .pdeNp e := by
  simp only [decode, decodeEntryAt, h0, Bool.false_eq_true, if_false]

theorem decode_pteNp (h0 : e.getLsbD 0 = false) : decode (.entry .pte e) = .pteNp e := by
  simp only [decode, decodeEntryAt, h0, Bool.false_eq_true, if_false]

theorem decode_pml4eTable (h0 : e.getLsbD 0 = true) : decode (.entry .pml4 e) = .pml4eTable e := by
  simp only [decode, decodeEntryAt, h0, if_true]

theorem decode_pte4k (h0 : e.getLsbD 0 = true) : decode (.entry .pte e) = .pte4k e := by
  simp only [decode, decodeEntryAt, h0, if_true]

theorem decode_pdpteTable (h0 : e.getLsbD 0 = true) (h7 : e.getLsbD 7 = false) :
    decode (.entry .pdpte e) = .pdpteTable e := by
  simp only [decode, decodeEntryAt, h0, h7, if_true, Bool.false_eq_true, if_false]

theorem decode_pdeTable (h0 : e.getLsbD 0 = true) (h7 : e.getLsbD 7 = false) :
    decode (.entry .pde e) = .pdeTable e := by
  simp only [decode, decodeEntryAt, h0, h7, if_true, Bool.false_eq_true, if_false]

theorem decode_pdpte1g (h0 : e.getLsbD 0 = true) (h7 : e.getLsbD 7 = true) :
    decode (.entry .pdpte e) = .pdpte1g e := by
  simp only [decode, decodeEntryAt, h0, h7, if_true]

theorem decode_pde2m (h0 : e.getLsbD 0 = true) (h7 : e.getLsbD 7 = true) : decode (.entry .pde e) = .pde2m e := by
  simp only [decode, decodeEntryAt, h0, h7, if_true]

end

/-- Settles O10: each mask and match says which of bits 0 and 7 are set. -/
theorem entryClassesFollowMaskAndMatch : Obligations.EntryClassesFollowMaskAndMatch := by
  intro e
  have classBits {mask pattern : Word} (h : e &&& mask = pattern) : inClass mask pattern e = true := beq_iff_eq.mpr h
  refine ⟨fun h => ?_, fun h => ?_, fun h => ?_, fun h => ?_⟩
  · have h0 : e.getLsbD 0 = false := by simpa using classBits h
    exact ⟨decode_pml4eNp h0, decode_pdpteNp h0, decode_pdeNp h0, decode_pteNp h0⟩
  · have h0 : e.getLsbD 0 = true := by simpa using classBits h
    exact ⟨decode_pml4eTable h0, decode_pte4k h0⟩
  · obtain ⟨h0, h7⟩ : e.getLsbD 0 = true ∧ e.getLsbD 7 = false := by simpa using classBits h
    exact ⟨decode_pdpteTable h0 h7, decode_pdeTable h0 h7⟩
  · obtain ⟨h0, h7⟩ : e.getLsbD 0 = true ∧ e.getLsbD 7 = true := by simpa using classBits h
    exact ⟨decode_pdpte1g h0 h7, decode_pde2m h0 h7⟩

/-! ### Decoding after encoding -/

/-- Settles O5: the fields of a built command word are read back, and a well-formed entry has the bits of its class. -/
theorem decodingAnEncodedInstructionGivesItBack : Obligations.DecodingAnEncodedInstructionGivesItBack := by
  intro i hwf
  cases i with
  | translate root va => simp [encode, decode, decodeCmd_translate]
  | decodeEntry L e => simp [encode, decode, decodeCmd_decodeEntry]
  | getPml4Index va => simp [encode, decode, decodeCmd_getPml4Index]
  | getPdpteIndex va => simp [encode, decode, decodeCmd_getPdpteIndex]
  | getPdeIndex va => simp [encode, decode, decodeCmd_getPdeIndex]
  | getPteIndex va => simp [encode, decode, decodeCmd_getPteIndex]
  | getTableBase e => simp [encode, decode, decodeCmd_getTableBase]
  | computeEntryAddress base index => simp [encode, decode, decodeCmd_computeEntryAddress]
  | pml4eNp e => exact decode_pml4eNp (by simpa [Instr.wf] using hwf)
  | pdpteNp e => exact decode_pdpteNp (by simpa [Instr.wf] using hwf)
  | pdeNp e => exact decode_pdeNp (by simpa [Instr.wf] using hwf)
  | pteNp e => exact decode_pteNp (by simpa [Instr.wf] using hwf)
  | pml4eTable e => exact decode_pml4eTable (by simpa [Instr.wf] using hwf)
  | pte4k e => exact decode_pte4k (by simpa [Instr.wf] using hwf)
  | pdpteTable e =>
    obtain ⟨h0, h7⟩ : e.getLsbD 0 = true ∧ e.getLsbD 7 = false := by simpa [Instr.wf] using hwf
    exact decode_pdpteTable h0 h7
  | pdeTable e =>
    obtain ⟨h0, h7⟩ : e.getLsbD 0 = true ∧ e.getLsbD 7 = false := by simpa [Instr.wf] using hwf
    exact decode_pdeTable h0 h7
  | pdpte1g e =>
    obtain ⟨h0, h7⟩ : e.getLsbD 0 = true ∧ e.getLsbD 7 = true := by simpa [Instr.wf] using hwf
    exact decode_pdpte1g h0 h7
  | pde2m e =>
    obtain ⟨h0, h7⟩ : e.getLsbD 0 = true ∧ e.getLsbD 7 = true := by simpa [Instr.wf] using hwf
    exact decode_pde2m h0 h7

/-! ### Encoding after decoding -/

/-- Every command word decodes to a command, and its encoding is the word with the ignored bits 0 (R64, R65). -/
theorem decodeCmd_round_trip (w : CmdWord) :
    (decodeCmd w).wf = true ∧ encode (decodeCmd w) = .cmd (clearIgnored w) := by
  rcases cmdOp_cases w with h | h | h | h | h | h | h | h
  · rw [decodeCmd_translate h]; simp [Instr.wf, encode, clearIgnored, h]
  · rw [decodeCmd_decodeEntry h]; simp [Instr.wf, encode, clearIgnored, h]
  · rw [decodeCmd_getPml4Index h]; simp [Instr.wf, encode, clearIgnored, h]
  · rw [decodeCmd_getPdpteIndex h]; simp [Instr.wf, encode, clearIgnored, h]
  · rw [decodeCmd_getPdeIndex h]; simp [Instr.wf, encode, clearIgnored, h]
  · rw [decodeCmd_getPteIndex h]; simp [Instr.wf, encode, clearIgnored, h]
  · rw [decodeCmd_getTableBase h]; simp [Instr.wf, encode, clearIgnored, h]
  · rw [decodeCmd_computeEntryAddress h]; simp [Instr.wf, encode, clearIgnored, h]

/-- Every entry decodes to a class it is in, and its encoding is the entry at its level (R79). -/
theorem decode_entry_round_trip (L : Level) (e : Word) :
    (decode (.entry L e)).wf = true ∧ encode (decode (.entry L e)) = .entry L e := by
  rcases h0 : e.getLsbD 0
  · cases L
    · rw [decode_pml4eNp h0]; exact ⟨by simpa [Instr.wf] using h0, rfl⟩
    · rw [decode_pdpteNp h0]; exact ⟨by simpa [Instr.wf] using h0, rfl⟩
    · rw [decode_pdeNp h0]; exact ⟨by simpa [Instr.wf] using h0, rfl⟩
    · rw [decode_pteNp h0]; exact ⟨by simpa [Instr.wf] using h0, rfl⟩
  · cases L
    · rw [decode_pml4eTable h0]; exact ⟨by simpa [Instr.wf] using h0, rfl⟩
    · rcases h7 : e.getLsbD 7
      · rw [decode_pdpteTable h0 h7]; exact ⟨by simpa [Instr.wf] using And.intro h0 h7, rfl⟩
      · rw [decode_pdpte1g h0 h7]; exact ⟨by simpa [Instr.wf] using And.intro h0 h7, rfl⟩
    · rcases h7 : e.getLsbD 7
      · rw [decode_pdeTable h0 h7]; exact ⟨by simpa [Instr.wf] using And.intro h0 h7, rfl⟩
      · rw [decode_pde2m h0 h7]; exact ⟨by simpa [Instr.wf] using And.intro h0 h7, rfl⟩
    · rw [decode_pte4k h0]; exact ⟨by simpa [Instr.wf] using h0, rfl⟩

theorem decode_wf (p : PortWord) : (decode p).wf = true := by
  cases p with
  | cmd w => exact (decodeCmd_round_trip w).1
  | entry L e => exact (decode_entry_round_trip L e).1

/-- Settles O6, from the round trips and the decoder's blindness to ignored bits. -/
theorem everyPortWordDecodesAsIfIgnoredBitsWereZero : Obligations.EveryPortWordDecodesAsIfIgnoredBitsWereZero :=
  ⟨decode_wf, fun w => (decodeCmd_round_trip w).2, Machine.decodeCmd_clearIgnored,
    fun L e => (decode_entry_round_trip L e).2⟩

/-! ### The rows of the opcode table (R63, R78) -/

open Sys2Proof.Laws

/-- Every encoding meets its row: the per-instruction family, for all instructions at once. -/
theorem row_accepts_encode {i : Instr} (h : i.wf = true) : i.row.accepts (encode i) = true := by
  cases i with
  | translate root va => exact TableRow.translate root va h
  | decodeEntry L e => exact TableRow.decodeEntry L e h
  | getPml4Index va => exact TableRow.getPml4Index va h
  | getPdpteIndex va => exact TableRow.getPdpteIndex va h
  | getPdeIndex va => exact TableRow.getPdeIndex va h
  | getPteIndex va => exact TableRow.getPteIndex va h
  | getTableBase e => exact TableRow.getTableBase e h
  | computeEntryAddress base index => exact TableRow.computeEntryAddress base index h
  | pml4eNp e => exact TableRow.pml4eNp e h
  | pml4eTable e => exact TableRow.pml4eTable e h
  | pdpteNp e => exact TableRow.pdpteNp e h
  | pdpteTable e => exact TableRow.pdpteTable e h
  | pdpte1g e => exact TableRow.pdpte1g e h
  | pdeNp e => exact TableRow.pdeNp e h
  | pdeTable e => exact TableRow.pdeTable e h
  | pde2m e => exact TableRow.pde2m e h
  | pteNp e => exact TableRow.pteNp e h
  | pte4k e => exact TableRow.pte4k e h

/-- The header bits a command's row fixes are the op field (R62). -/
theorem header_and_seven (w : CmdWord) : (w.extractLsb' 0 8).toNat &&& 7 = (cmdOp w).toNat := by
  rw [cmdOp, BitVec.extractLsb'_toNat, BitVec.extractLsb'_toNat]
  exact (Nat.and_two_pow_sub_one_eq_mod _ 3).trans (Nat.mod_mod_of_dvd _ (by decide))

/-- A command word meets a command's row exactly if its op is the row's. -/
theorem commandRow_accepts_iff {name : String} {op : BitVec 3} {w : CmdWord} :
    Row.accepts ⟨name, .cmd, 7, op.toNat⟩ (.cmd w) = true ↔ cmdOp w = op := by
  rw [Row.accepts, header_and_seven, Bool.and_eq_true, beq_iff_eq, beq_iff_eq, BitVec.toNat_inj]
  exact and_iff_right rfl

/-- An entry meets an entry class's row exactly if it was read at the row's level and is in the class. -/
theorem entryRow_accepts_iff {name : String} {L L' : Level} {mask pattern e : Word} :
    Row.accepts ⟨name, .entryAt L, mask.toNat, pattern.toNat⟩ (.entry L' e) = true ↔
      L = L' ∧ inClass mask pattern e = true := by
  simp only [Row.accepts, inClass, Bool.and_eq_true, beq_iff_eq, RowPort.entryAt.injEq, ← BitVec.toNat_and,
    BitVec.toNat_inj]

/-- A command word meets no row but that of the command it decodes to. -/
theorem row_eq_of_accepts_cmd {i : Instr} {w : CmdWord} (h : i.row.accepts (.cmd w) = true) :
    i.row = (decodeCmd w).row := by
  cases i with
  | translate => rw [decodeCmd_translate (commandRow_accepts_iff.mp h)]; rfl
  | decodeEntry => rw [decodeCmd_decodeEntry (commandRow_accepts_iff.mp h)]; rfl
  | getPml4Index => rw [decodeCmd_getPml4Index (commandRow_accepts_iff.mp h)]; rfl
  | getPdpteIndex => rw [decodeCmd_getPdpteIndex (commandRow_accepts_iff.mp h)]; rfl
  | getPdeIndex => rw [decodeCmd_getPdeIndex (commandRow_accepts_iff.mp h)]; rfl
  | getPteIndex => rw [decodeCmd_getPteIndex (commandRow_accepts_iff.mp h)]; rfl
  | getTableBase => rw [decodeCmd_getTableBase (commandRow_accepts_iff.mp h)]; rfl
  | computeEntryAddress => rw [decodeCmd_computeEntryAddress (commandRow_accepts_iff.mp h)]; rfl
  | _ => simp [Instr.row, Row.accepts] at h

/-- An entry meets no row but that of the class it decodes to. -/
theorem row_eq_of_accepts_entry {i : Instr} {L : Level} {e : Word} (h : i.row.accepts (.entry L e) = true) :
    i.row = (decode (.entry L e)).row := by
  cases i with
  | pml4eNp | pdpteNp | pdeNp | pteNp =>
    obtain ⟨rfl, hclass⟩ := (entryRow_accepts_iff (mask := 0x1#64) (pattern := 0x0#64)).mp h
    have h0 : e.getLsbD 0 = false := by simpa using hclass
    simp only [decode_pml4eNp h0, decode_pdpteNp h0, decode_pdeNp h0, decode_pteNp h0, Instr.row]
  | pml4eTable | pte4k =>
    obtain ⟨rfl, hclass⟩ := (entryRow_accepts_iff (mask := 0x1#64) (pattern := 0x1#64)).mp h
    have h0 : e.getLsbD 0 = true := by simpa using hclass
    simp only [decode_pml4eTable h0, decode_pte4k h0, Instr.row]
  | pdpteTable | pdeTable =>
    obtain ⟨rfl, hclass⟩ := (entryRow_accepts_iff (mask := 0x81#64) (pattern := 0x01#64)).mp h
    obtain ⟨h0, h7⟩ : e.getLsbD 0 = true ∧ e.getLsbD 7 = false := by simpa using hclass
    simp only [decode_pdpteTable h0 h7, decode_pdeTable h0 h7, Instr.row]
  | pdpte1g | pde2m =>
    obtain ⟨rfl, hclass⟩ := (entryRow_accepts_iff (mask := 0x81#64) (pattern := 0x81#64)).mp h
    obtain ⟨h0, h7⟩ : e.getLsbD 0 = true ∧ e.getLsbD 7 = true := by simpa using hclass
    simp only [decode_pdpte1g h0 h7, decode_pde2m h0 h7, Instr.row]
  | _ => simp [Instr.row, Row.accepts] at h

/-- The rows of the commands fix the op field and nothing else (R63). -/
theorem Instr.row_mask_of_cmd (i : Instr) (h : i.row.port = .cmd) : i.row.mask = 7 := by
  cases i with
  | translate | decodeEntry | getPml4Index | getPdpteIndex | getPdeIndex | getPteIndex | getTableBase
  | computeEntryAddress => rfl
  | _ => cases h

/-- Whether a command word meets a row of the table depends on its op field alone. -/
theorem row_accepts_cmd_congr (i : Instr) {w w' : CmdWord} (h : cmdOp w = cmdOp w') :
    i.row.accepts (.cmd w) = i.row.accepts (.cmd w') := by
  by_cases hport : i.row.port = .cmd
  · simp only [Row.accepts, i.row_mask_of_cmd hport, header_and_seven, h]
  · simp only [Row.accepts, beq_eq_false_iff_ne.mpr hport, Bool.false_and]

/-- A port word meets the row of the instruction it decodes to. -/
theorem row_decode_accepts (p : PortWord) : (decode p).row.accepts p = true := by
  have hmeets := row_accepts_encode (decode_wf p)
  cases p with
  | cmd w =>
    obtain ⟨-, hencode⟩ := decodeCmd_round_trip w
    rwa [decode, hencode, row_accepts_cmd_congr _ (Machine.cmdOp_clearIgnored w)] at hmeets
  | entry L e =>
    obtain ⟨-, hencode⟩ := decode_entry_round_trip L e
    rwa [hencode] at hmeets

/-- Settles O7: a word meets its own row, and the rows of a port that accept it are that one. -/
theorem everyPortWordMeetsExactlyOneRow : Obligations.EveryPortWordMeetsExactlyOneRow := by
  intro p
  refine ⟨row_decode_accepts p, fun i h => ?_⟩
  cases p with
  | cmd w => exact row_eq_of_accepts_cmd h
  | entry L e => exact row_eq_of_accepts_entry h

end Sys2Proof
end

section
/-! PROOFS. The response word loses nothing (30_encoding.md section 3): every field is read back from its place, and
every code has one meaning. -/

namespace Sys2Proof.Machine

theorem Level.code_injective {a b : Level} (h : a.code = b.code) : a = b := by
  rw [← Level.ofCode_code a, h, Level.ofCode_code]

theorem Status.code_injective {a b : Status} (h : a.code = b.code) : a = b := by
  revert h; cases a <;> cases b <;> decide

theorem PageSize.code_injective {a b : PageSize} (h : a.code = b.code) : a = b := by
  revert h; cases a <;> cases b <;> decide

theorem Reason.code_injective {a b : Reason} (h : a.code = b.code) : a = b := by
  revert h; cases a <;> cases b <;> decide

/-- The one bit of a reason's code is the code. -/
theorem Reason.code_eq_ofBool (a : Reason) : a.code = BitVec.ofBool (a.code.getLsbD 0) := by cases a <;> rfl

/-- Settles O12, field by field. -/
theorem responseWordLosesNothing : Obligations.ResponseWordLosesNothing := by
  intro r r' hbits hcause
  have hstatus : r.status = r'.status := Status.code_injective (by rw [← r.bits_status, hbits, r'.bits_status])
  have hsize : r.size = r'.size := PageSize.code_injective (by rw [← r.bits_size, hbits, r'.bits_size])
  have hlevel : r.level = r'.level := Level.code_injective (by rw [← r.bits_level, hbits, r'.bits_level])
  have hreason : r.reason = r'.reason := Reason.code_injective (by
    rw [r.reason.code_eq_ofBool, r'.reason.code_eq_ofBool, ← r.bits_reason, hbits, r'.bits_reason])
  have hpresent : r.present = r'.present := by rw [← r.bits_present, hbits, r'.bits_present]
  have hleaf : r.isLeaf = r'.isLeaf := by rw [← r.bits_isLeaf, hbits, r'.bits_isLeaf]
  have hvalue : r.value = r'.value := by rw [← r.bits_value, hbits, r'.bits_value]
  have hflags : r.flags = r'.flags := by rw [← r.bits_flags, hbits, r'.bits_flags]
  cases r
  cases r'
  simp_all only

end Sys2Proof.Machine
end

section
/-! PROOFS. What each step of a walk does, and what it leaves unchanged (43_walker.md section 2, 10_state.md R14, R20,
60_exceptions.md section 1). -/

namespace Sys2Proof.Machine

/-! ### Table pointers and leaves (43_walker.md R115 to R120) -/

/-- A table pointer taken at its level: the base is masked once, and the index is a field of `va_q`. -/
theorem tablePointerAt_taken {s : State} {L : Level} (next : Level) (e : Word) (hst : s.st = .rdWait)
    (hL : s.lvlQ = L) :
    tablePointerAt L next tableBaseMask e s = .next { s with
      st := .walk
      baseQ := e &&& tableBaseMask
      lvlQ := next
      eaQ := (e &&& tableBaseMask) ||| ((s.vaQ.extractLsb' (shift next) 9).setWidth 64 * 8) } := by
  rw [tablePointerAt, onEntry_taken _ hst hL, enterLevel, entryAddress_masked_base]

/-- Settles O25, by the class of the entry and the effect of its class. -/
theorem tablePointerSendsTheWalkOn : Obligations.TablePointerSendsTheWalkOn :=
  ⟨fun _ => decode_pml4eTable, fun _ h0 h7 => ⟨decode_pdpteTable h0 h7, decode_pdeTable h0 h7⟩,
    fun e _ hst =>
      ⟨tablePointerAt_taken .pdpte e hst, tablePointerAt_taken .pde e hst, tablePointerAt_taken .pte e hst⟩⟩

/-- Settles O26, by the class of the entry and the effect of its class. -/
theorem leafEntryResolvesTheWalk : Obligations.LeafEntryResolvesTheWalk :=
  ⟨fun _ h0 h7 => ⟨decode_pdpte1g h0 h7, decode_pde2m h0 h7⟩, fun _ => decode_pte4k,
    fun _ _ hst => ⟨onEntry_taken _ hst, onEntry_taken _ hst, onEntry_taken _ hst⟩⟩

/-- The effect of a table pointer depends on its masked bits alone. -/
theorem tablePointerAt_congr {e e' : Word} (h : e &&& tableBaseMask = e' &&& tableBaseMask) (L next : Level)
    (s : State) : tablePointerAt L next tableBaseMask e s = tablePointerAt L next tableBaseMask e' s := by
  rw [tablePointerAt, tablePointerAt, h]

/-- Settles O46: both entries are of one class, which masks them. -/
theorem tablePointerFlagsDoNotMatter : Obligations.TablePointerFlagsDoNotMatter := by
  intro L e e' s h0 h0' hclass hbase
  rcases hclass with rfl | ⟨rfl | rfl, h7, h7'⟩
  · rw [decode_pml4eTable h0, decode_pml4eTable h0']
    exact tablePointerAt_congr hbase .pml4 .pdpte s
  · rw [decode_pdpteTable h0 h7, decode_pdpteTable h0' h7']
    exact tablePointerAt_congr hbase .pdpte .pde s
  · rw [decode_pdeTable h0 h7, decode_pdeTable h0' h7']
    exact tablePointerAt_congr hbase .pde .pte s

/-! ### The offers of the walker (20_memory.md R41, 10_state.md R22) -/

/-- Settles O22: the offer by the four states, and the issue of the read. -/
theorem walkOffersItsEntryAddressOnce : Obligations.WalkOffersItsEntryAddressOnce := by
  refine ⟨fun s a => ⟨rdReqOffered_eq_some, fun ⟨hst, ha⟩ => ?_⟩,
    fun s he hst hb => step_of_transition he (.issues hst hb)⟩
  simp only [rdReqOffered, hst, ha]

/-- Only RESP offers a response, the one held. -/
theorem rspOffered_eq_some_iff {s : State} {r : Response} : rspOffered s = some r ↔ s.st = .resp ∧ s.rspQ = some r := by
  cases hst : s.st <;> simp [rspOffered, hst]

/-- Settles O28: the offer by the four states, and the delivery of the response held. -/
theorem hostTakesTheResponseAndTheWalkerIsIdle : Obligations.HostTakesTheResponseAndTheWalkerIsIdle := by
  refine ⟨fun s r => rspOffered_eq_some_iff, fun s r he hst hr hb => ?_⟩
  rw [step_of_transition he (.delivers hst hb), deliverResponse, hr, Option.toList_some]

/-! ### Waiting (10_state.md R17) -/

/-- Settles O35: the wait is a transition to the same state, step after step. -/
theorem walkerWaitsForEverWhenNothingIsOffered : Obligations.WalkerWaitsForEverWhenNothingIsOffered := by
  intro s k he hwait
  have hstep : step s = .next s := by
    refine step_of_transition he (.waits ?_)
    rcases hwait with hidle | hwalk | ⟨hst, ha, hb⟩ | hresp
    · exact .inl hidle
    · exact .inr (.inl hwalk)
    · exact .inr (.inr (.inl ⟨hst, by simp [pendingAnswer, ha, hb]⟩))
    · exact .inr (.inr (.inr hresp))
  induction k with
  | zero => rfl
  | succ k ih => simp only [run, hstep, ih]

/-! ### The level of a walk (10_state.md R20) -/

/-- Only the PTE level has no table pointers, and below it the next level's code is one higher. -/
theorem code_nextLevel {L : Level} {e : Word} (hleaf : isLeafAt L e = false) :
    (nextLevel L).code.toNat = L.code.toNat + 1 := by
  cases L with
  | pml4 | pdpte | pde => rfl
  | pte => cases hleaf

/-- In a walk a transition leaves the level and does not go back to WALK, or it follows a table pointer one level on. -/
theorem Transition.level {s t : State} (h : Transition s t) (hw : walking s) :
    (t.lvlQ = s.lvlQ ∧ (s.st = .rdWait → t.st ≠ .walk)) ∨
      (s.st = .rdWait ∧ t.st = .walk ∧ t.lvlQ.code.toNat = s.lvlQ.code.toNat + 1) := by
  cases h with
  | waits => exact .inl ⟨rfl, fun hst => by simp [hst]⟩
  | starts _ _ hst | answers _ _ _ hst => exact absurd hw (not_walking_of_idle hst)
  | issues | notPresent | resolves | fails => exact .inl ⟨rfl, fun _ => by simp⟩
  | goesOn e hst _ _ hleaf => exact .inr ⟨hst, rfl, code_nextLevel hleaf⟩
  | delivers hst => exact absurd hw (not_walking_of_resp hst)

/-- No level has a code above the PTE level's. -/
theorem code_le_three (L : Level) : L.code.toNat ≤ 3 := by cases L <;> decide

/-- Settles O37, transition by transition. -/
theorem levelGoesUpByOneAndEndsAtPte : Obligations.LevelGoesUpByOneAndEndsAtPte := by
  refine ⟨fun s t he hw h => (transition_of_step he h).level hw, fun s t he hst hL h => ?_, fun s t he hst h ht => ?_⟩
  · rcases (transition_of_step he h).level (walking_of_rdWait hst) with ⟨-, hstays⟩ | ⟨-, -, hcode⟩
    · exact hstays hst
    · rw [hL] at hcode
      exact absurd (code_le_three t.lvlQ) (by rw [hcode]; decide)
  · cases transition_of_step he h with
    | starts => rfl
    | waits => rw [hst] at ht; cases ht
    | answers => cases ht
    | issues hst' | notPresent _ hst' | goesOn _ hst' | resolves _ _ _ hst' | fails _ hst' | delivers hst' =>
      rw [hst] at hst'; cases hst'

/-! ### Where words are taken (10_state.md R14) -/

theorem exec_command_elsewhere {s : State} (w : CmdWord) (h : s.st ≠ .idle) : exec (decode (.cmd w)) s = .next s := by
  rw [decode]
  rcases cmdOp_cases w with hw | hw | hw | hw | hw | hw | hw | hw
  · rw [decodeCmd_translate hw]; exact onCommand_elsewhere _ h
  · rw [decodeCmd_decodeEntry hw]; exact onCommand_elsewhere _ h
  · rw [decodeCmd_getPml4Index hw]; exact onCommand_elsewhere _ h
  · rw [decodeCmd_getPdpteIndex hw]; exact onCommand_elsewhere _ h
  · rw [decodeCmd_getPdeIndex hw]; exact onCommand_elsewhere _ h
  · rw [decodeCmd_getPteIndex hw]; exact onCommand_elsewhere _ h
  · rw [decodeCmd_getTableBase hw]; exact onCommand_elsewhere _ h
  · rw [decodeCmd_computeEntryAddress hw]; exact onCommand_elsewhere _ h

theorem exec_entry_elsewhere {s : State} {L : Level} (e : Word) (h : s.st ≠ .rdWait ∨ s.lvlQ ≠ L) :
    exec (decode (.entry L e)) s = .next s := by
  rcases h0 : e.getLsbD 0
  · cases L
    · rw [decode_pml4eNp h0]; exact onEntry_elsewhere _ h
    · rw [decode_pdpteNp h0]; exact onEntry_elsewhere _ h
    · rw [decode_pdeNp h0]; exact onEntry_elsewhere _ h
    · rw [decode_pteNp h0]; exact onEntry_elsewhere _ h
  · cases L
    · rw [decode_pml4eTable h0]; exact onEntry_elsewhere _ h
    · rcases h7 : e.getLsbD 7
      · rw [decode_pdpteTable h0 h7]; exact onEntry_elsewhere _ h
      · rw [decode_pdpte1g h0 h7]; exact onEntry_elsewhere _ h
    · rcases h7 : e.getLsbD 7
      · rw [decode_pdeTable h0 h7]; exact onEntry_elsewhere _ h
      · rw [decode_pde2m h0 h7]; exact onEntry_elsewhere _ h
    · rw [decode_pte4k h0]; exact onEntry_elsewhere _ h

/-- Outside IDLE no transition takes a command. -/
theorem Transition.keeps_cmd {s t : State} (h : Transition s t) (hst : s.st ≠ .idle) : t.cmd = s.cmd := by
  cases h with
  | starts _ _ hidle | answers _ _ _ hidle => exact absurd hidle hst
  | waits | issues | notPresent | goesOn | resolves | fails | delivers => rfl

/-- Settles O38: the guards of the meanings, and the transitions outside IDLE. -/
theorem wordsAreTakenInTheirStatesOnly : Obligations.WordsAreTakenInTheirStatesOnly :=
  ⟨fun w _ h => exec_command_elsewhere w h, fun _ e _ h => exec_entry_elsewhere e h,
    fun _ _ he hst h => (transition_of_step he h).keeps_cmd hst⟩

/-! ### Frames and faults -/

/-- Settles O39: an instruction has one of six effects, and each writes walk registers, `st` and `rsp_q` alone. -/
theorem instructionsLeaveMemoryPortsAndPlatform : Obligations.InstructionsLeaveMemoryPortsAndPlatform := by
  intro i s t h
  cases effect_of_exec h with
  | notTaken | answered | started | notPresent | wentOn | resolved =>
    exact ⟨fun _ => rfl, rfl, rfl, rfl, rfl, rfl, rfl, rfl, rfl, rfl, rfl, rfl, rfl⟩

/-- Settles O44: of the transitions that hold a response only two hold a FAULT, both in RD_WAIT. -/
theorem faultComesOnlyFromTheEntryRead : Obligations.FaultComesOnlyFromTheEntryRead := by
  intro s t r he hempty h hr hfault
  cases transition_of_step he h with
  | waits | starts | issues | goesOn => exact absurd (hempty.symm.trans hr) nofun
  | answers w rest r' _ _ _ hpure =>
    obtain rfl := Option.some.inj hr
    obtain ⟨hvalue, -⟩ := pureResponse_is_value hpure
    exact absurd (hvalue.symm.trans hfault) nofun
  | notPresent e hst ha h0 =>
    obtain rfl := Option.some.inj hr
    exact ⟨hst, rfl, .inl ⟨e, ha, h0, rfl, rfl⟩⟩
  | resolves =>
    obtain rfl := Option.some.inj hr
    cases hfault
  | fails c hst ha =>
    obtain rfl := Option.some.inj hr
    exact ⟨hst, rfl, .inr ⟨c, ha, rfl, rfl⟩⟩
  | delivers => cases hr

end Sys2Proof.Machine
end

section
/-! PROOFS. The memory behind the read port: who writes it, that its form is canonical, how its words are read
(20_memory.md R44 to R47). -/

namespace Sys2Proof.Machine

/-! ### Who writes memory (R46) -/

/-- What no transition touches: the memory and the platform's settings. -/
theorem Transition.keeps_platform {s t : State} (h : Transition s t) :
    t.mem = s.mem ∧ t.failing = s.failing ∧ t.byteOrder = s.byteOrder ∧ t.env = s.env ∧ t.hostBusy = s.hostBusy ∧
      t.memBusy = s.memBusy := by
  cases h with
  | waits | starts | answers | issues | notPresent | goesOn | resolves | fails | delivers =>
    exact ⟨rfl, rfl, rfl, rfl, rfl, rfl⟩

/-- An outside move leaves the memory, or it is a write of one byte. -/
theorem applyMove_mem {Cause : Type} {m : EnvMove Cause} {s t : State Cause} (h : applyMove m s = .next t) :
    t.mem = s.mem ∨ ∃ x b, m = .writeMem x b ∧ t.mem = s.mem.writeByte x.toNat b := by
  rcases m with w | b | b | r | ⟨a, b⟩ | ⟨a, _ | c⟩ | _ <;> simp only [applyMove] at h
  case answer =>
    split at h <;> cases h
    exact .inl rfl
  case writeMem => cases h; exact .inr ⟨a, b, rfl, rfl⟩
  all_goals cases h; exact .inl rfl

/-- A memory in canonical form in which the byte at `a` reads as `b`. -/
def ReadsAt (a : Nat) (b : Byte) (s : State) : Prop := s.mem.wf = true ∧ s.mem.readByte a = b

/-- An outside move that writes no byte at `a` leaves what is read there. -/
theorem ReadsAt.move {a : Nat} {b : Byte} {m : EnvMove} {s t : State} (h : ReadsAt a b s) (hm : applyMove m s = .next t)
    (hno : ∀ x b', m = .writeMem x b' → x.toNat ≠ a) : ReadsAt a b t := by
  obtain ⟨hwf, hread⟩ := h
  rcases applyMove_mem hm with hmem | ⟨x, b', rfl, hmem⟩
  · exact ⟨hmem ▸ hwf, hmem ▸ hread⟩
  · refine ⟨hmem ▸ Memory.writeByte_wf b' hwf x.isLt, ?_⟩
    rw [hmem, Memory.readByte_writeByte _ _ _ hwf, if_neg (hno x b' rfl).symm, hread]

/-- Settles O40: neither the moves of the batch nor the walker's own step write the byte. -/
theorem onlyOutsideAgentsWriteMemory : Obligations.OnlyOutsideAgentsWriteMemory := by
  intro s t a hwf h hno
  obtain ⟨u, htick, hown⟩ := step_split h
  have hu : ReadsAt a (s.mem.readByte a) u := by
    cases he : s.env with
    | nil =>
      rw [envTick_nil he] at htick
      cases htick
      exact ⟨hwf, rfl⟩
    | cons batch rest =>
      simp only [envTick, he] at htick
      refine applyBatch_keeps htick ⟨hwf, rfl⟩ fun m hm v v' hv hmove => hv.move hmove fun x b hx => ?_
      exact hno batch rest b he x (hx ▸ hm)
  obtain ⟨hmem, -⟩ := (transition_of_walkerStep hown).keeps_platform
  rw [hmem]
  exact hu.2

/-- Settles O41, from the laws of the memory. -/
theorem outsideWriteChangesOneByte : Obligations.OutsideWriteChangesOneByte := by
  intro s x b hwf
  refine ⟨_, rfl, ?_, fun a ha => ?_, Memory.writeByte_wf b hwf x.isLt⟩
  · rw [Memory.readByte_writeByte _ _ _ hwf, if_pos rfl]
  · rw [Memory.readByte_writeByte _ _ _ hwf, if_neg ha]

/-! ### The canonical form -/

/-- The first key of a rising list is its least. -/
theorem first_key_le {α : Type} {lo k a : Nat} {u v : α} {rest : List (Nat × α)}
    (h : risingFrom lo ((k, u) :: rest) = true) (ha : lookupAt a ((k, u) :: rest) = some v) : k ≤ a := by
  by_contra hlt
  have hk : risingFrom k ((k, u) :: rest) = true := by
    simp only [risingFrom, Bool.and_eq_true, decide_eq_true_eq] at h ⊢
    exact ⟨le_refl k, h.2⟩
  rw [lookupAt_below hk (not_le.mp hlt)] at ha
  cases ha

theorem lookupAt_first {α : Type} (k : Nat) (u : α) (rest : List (Nat × α)) : lookupAt k ((k, u) :: rest) = some u :=
  if_pos rfl

/-- Behind the first key of a rising list it is not listed again. -/
theorem lookupAt_rest {α : Type} {lo k : Nat} {u : α} {rest : List (Nat × α)}
    (h : risingFrom lo ((k, u) :: rest) = true) (a : Nat) :
    lookupAt a rest = if k = a then none else lookupAt a ((k, u) :: rest) := by
  simp only [risingFrom, Bool.and_eq_true, decide_eq_true_eq] at h
  split
  · next hka => exact lookupAt_below h.2 (by omega)
  · next hka => simp only [lookupAt, if_neg hka]

/-- Rising lists that list the same are equal. -/
theorem eq_of_lookupAt_eq {α : Type} {lo lo' : Nat} {m m' : List (Nat × α)} (hm : risingFrom lo m = true)
    (hm' : risingFrom lo' m' = true) (h : ∀ a, lookupAt a m = lookupAt a m') : m = m' := by
  induction m generalizing lo lo' m' with
  | nil =>
    cases m' with
    | nil => rfl
    | cons c' rest' => exact absurd ((h c'.1).trans (lookupAt_first _ _ _)) nofun
  | cons c rest ih =>
    obtain ⟨k, u⟩ := c
    cases m' with
    | nil => exact absurd ((h k).symm.trans (lookupAt_first _ _ _)) nofun
    | cons c' rest' =>
      obtain ⟨k', u'⟩ := c'
      have hk : k = k' := le_antisymm (first_key_le hm ((h k').trans (lookupAt_first _ _ _)))
        (first_key_le hm' ((h k).symm.trans (lookupAt_first _ _ _)))
      subst hk
      have hu : u = u' := Option.some.inj (((lookupAt_first _ _ _).symm.trans (h k)).trans (lookupAt_first _ _ _))
      have hrest : ∀ a, lookupAt a rest = lookupAt a rest' := fun a => by
        rw [lookupAt_rest hm, lookupAt_rest hm', h a]
      simp only [risingFrom, Bool.and_eq_true] at hm hm'
      rw [hu, ih hm.2 hm'.2 hrest]

/-- In canonical form an address is listed exactly if it does not read as an unlisted one. -/
theorem Memory.lookupAt_eq {m : Memory} (h : m.wf = true) (a : Nat) :
    lookupAt a m = if m.readByte a = Config.unlistedByte then none else some (m.readByte a) := by
  obtain ⟨-, hlisted⟩ := (Memory.wf_iff m).mp h
  rw [Memory.readByte]
  cases hl : lookupAt a m with
  | none => rw [Option.getD_none, if_pos rfl]
  | some b =>
    obtain ⟨-, hb⟩ := hlisted _ (mem_of_lookupAt hl)
    rw [Option.getD_some, if_neg hb]

/-- Settles O42: what is read fixes what is listed, and what is listed fixes the list. -/
theorem canonicalMemoriesThatReadAlikeAreEqual : Obligations.CanonicalMemoriesThatReadAlikeAreEqual := by
  intro m m' hm hm' h
  obtain ⟨hrising, -⟩ := (Memory.wf_iff m).mp hm
  obtain ⟨hrising', -⟩ := (Memory.wf_iff m').mp hm'
  exact eq_of_lookupAt_eq hrising hrising' fun a => by rw [Memory.lookupAt_eq hm, Memory.lookupAt_eq hm', h a]

/-! ### Words (R44) -/

/-- A step leaves the byte order. -/
theorem step_keeps_byteOrder {s t : State} (h : step s = .next t) : t.byteOrder = s.byteOrder :=
  step_keeps (P := fun u => u.byteOrder = s.byteOrder) h rfl (fun _ _ hu => hu)
    (fun _ _ _ hu hm => by obtain ⟨-, horder, -⟩ := applyMove_frame hm; exact horder.trans hu)
    (fun _ _ hu hmove => by
      obtain ⟨-, -, horder, -⟩ := (transition_of_walkerMove hmove).keeps_platform
      exact horder.trans hu)

theorem sum_range_eight (f : Nat → Nat) :
    ((List.range 8).map f).sum = f 0 + (f 1 + (f 2 + (f 3 + (f 4 + (f 5 + (f 6 + f 7)))))) := by
  simp [List.range, List.range.loop]

/-- Settles O43: each order joins the eight bytes, and joined bytes are a sum. -/
theorem imageWordFollowsTheByteOrder : Obligations.ImageWordFollowsTheByteOrder := by
  refine ⟨fun m a => ?_, fun m a => ?_, fun s t => step_keeps_byteOrder⟩
  · rw [Memory.readWord, toNat_append_bytes, sum_range_eight]
    simp only [Nat.add_zero]
    ring
  · rw [Memory.readWord, toNat_append_bytes, sum_range_eight]
    simp only [Nat.add_zero, Nat.reduceSub]
    ring

end Sys2Proof.Machine
end

section
/-! PROOFS. The type of the causes is an argument (00_scope.md R6, 92_eei_decisions.md D11): the step commutes with
every map of causes. -/

namespace Sys2Proof.Machine

/-! ### The closed machine -/

/-- The arms of the two machines are the same calls. -/
theorem exec_eq_execOf : exec = execOf := by
  funext i s
  cases i <;> rfl

theorem step_eq_stepOf (s : State) : step s = stepOf s := congrArg (stepBy · s) exec_eq_execOf

/-- Settles O53, arm by arm. -/
theorem machineIsTheParametricOneAtReadCause : Obligations.MachineIsTheParametricOneAtReadCause :=
  ⟨congrFun₂ exec_eq_execOf, step_eq_stepOf, rfl⟩

section
variable {C D : Type} (f : C → D)

/-! ### The failing addresses -/

theorem lookupAt_map (a : Nat) (l : List (Nat × C)) :
    lookupAt a (l.map fun p => (p.1, f p.2)) = (lookupAt a l).map f := by
  induction l with
  | nil => rfl
  | cons p rest ih =>
    simp only [List.map_cons, lookupAt, ih]
    split <;> rfl

theorem insertAt_map (a : Nat) (c : C) (l : List (Nat × C)) :
    insertAt a (f c) (l.map fun p => (p.1, f p.2)) = (insertAt a c l).map fun p => (p.1, f p.2) := by
  induction l with
  | nil => rfl
  | cons p rest ih =>
    simp only [List.map_cons, insertAt, ih]
    split
    · rfl
    · split <;> rfl

theorem removeAt_map (a : Nat) (l : List (Nat × C)) :
    removeAt a (l.map fun p => (p.1, f p.2)) = (removeAt a l).map fun p => (p.1, f p.2) := by
  induction l with
  | nil => rfl
  | cons p rest ih =>
    simp only [List.map_cons, removeAt, ih]
    split <;> rfl

/-! ### The answers to reads -/

theorem memoryAnswer_mapCause (s : State C) (a : Word) :
    memoryAnswer (s.mapCause f) a = (memoryAnswer s a).mapCause f := by
  simp only [memoryAnswer, mapCause_failing, lookupAt_map, mapCause_mem, mapCause_byteOrder]
  cases lookupAt a.toNat s.failing <;> rfl

theorem pendingAnswer_mapCause (s : State C) :
    pendingAnswer (s.mapCause f) = (pendingAnswer s).map (ReadResp.mapCause f) := by
  simp only [pendingAnswer, mapCause_rdRsp, mapCause_memBusy, mapCause_eaQ, memoryAnswer_mapCause]
  cases s.rdRsp with
  | some r => rfl
  | none => cases s.memBusy <;> rfl

theorem mayAnswer_mapCause (s : State C) : mayAnswer (s.mapCause f) = mayAnswer s :=
  congrArg (decide (s.st = .rdWait) && ·) Option.isNone_map

/-! ### The outside moves -/

theorem applyMove_mapCause (m : EnvMove C) (s : State C) :
    applyMove (m.mapCause f) (s.mapCause f) = seenBy (State.mapCause f) (applyMove m s) := by
  rcases m with w | b | b | r | ⟨a, b⟩ | ⟨a, _ | c⟩ | _
  case command | hostBusy | memBusy | writeMem | reset => rfl
  case answer =>
    simp only [EnvMove.mapCause, applyMove, mayAnswer_mapCause]
    split <;> rfl
  case failAt.none =>
    exact congrArg (fun l => Host.Outcome.next { s.mapCause f with failing := l }) (removeAt_map f a.toNat s.failing)
  case failAt.some =>
    exact congrArg (fun l => Host.Outcome.next { s.mapCause f with failing := l }) (insertAt_map f a.toNat c s.failing)

theorem applyBatch_mapCause (batch : List (EnvMove C)) (s : State C) :
    applyBatch (batch.map (EnvMove.mapCause f)) (s.mapCause f) = seenBy (State.mapCause f) (applyBatch batch s) := by
  induction batch generalizing s with
  | nil => rfl
  | cons m rest ih =>
    simp only [List.map_cons, applyBatch, applyMove_mapCause]
    cases applyMove m s with
    | next t => exact ih t
    | fault r => rfl
    | refused r => rfl

theorem envTick_mapCause (s : State C) : envTick (s.mapCause f) = seenBy (State.mapCause f) (envTick s) := by
  cases he : s.env with
  | nil =>
    rw [envTick_nil he, envTick_nil (by rw [mapCause_env, he, List.map_nil])]
    rfl
  | cons batch rest =>
    simp only [envTick, mapCause_env, he, List.map_cons]
    exact applyBatch_mapCause f batch { s with env := rest }

/-! ### The instructions -/

theorem onCommand_mapCause {s : State C} {effect : State C → State C} {effect' : State D → State D}
    (h : effect' (s.mapCause f) = (effect s).mapCause f) :
    onCommand (s.mapCause f) effect' = seenBy (State.mapCause f) (onCommand s effect) := by
  simp only [onCommand, mapCause_st, h]
  split <;> rfl

theorem onEntry_mapCause {s : State C} (L : Level) {effect : State C → State C} {effect' : State D → State D}
    (h : effect' (s.mapCause f) = (effect s).mapCause f) :
    onEntry L (s.mapCause f) effect' = seenBy (State.mapCause f) (onEntry L s effect) := by
  simp only [onEntry, mapCause_st, mapCause_lvlQ, h]
  split <;> rfl

/-- No instruction looks at a cause: its effect holds none, or writes a response without one. -/
theorem execOf_mapCause (i : Instr) (s : State C) :
    execOf i (s.mapCause f) = seenBy (State.mapCause f) (execOf i s) := by
  cases i with
  | translate | decodeEntry | getPml4Index | getPdpteIndex | getPdeIndex | getPteIndex | getTableBase
  | computeEntryAddress => exact onCommand_mapCause f rfl
  | pml4eNp | pml4eTable | pdpteNp | pdpteTable | pdpte1g | pdeNp | pdeTable | pde2m | pteNp | pte4k =>
    exact onEntry_mapCause f _ rfl

/-! ### The walker's own step -/

theorem deliverResponse_mapCause (s : State C) : deliverResponse (s.mapCause f) = (deliverResponse s).mapCause f := by
  have hlog : (s.mapCause f).rspLog ++ (s.mapCause f).rspQ.toList =
      (s.rspLog ++ s.rspQ.toList).map (Response.mapCause f) := by
    rw [mapCause_rspLog, mapCause_rspQ, List.map_append, Option.toList_map]
  exact congrArg (fun log => { deliverResponse (s.mapCause f) with rspLog := log }) hlog

/-- If both states move, and to states that the map relates, the step commutes. -/
theorem walkerStepBy_mapCause_of_move {s t : State C} {t' : State D} (h : nextAction s = .move t)
    (h' : nextAction (s.mapCause f) = .move t') (ht : t' = t.mapCause f) :
    walkerStepBy execOf (s.mapCause f) = seenBy (State.mapCause f) (walkerStepBy execOf s) := by
  rw [walkerStepBy_move h, walkerStepBy_move h', ht]
  rfl

/-- If both states run a word, in states that the map relates, the step commutes. -/
theorem walkerStepBy_mapCause_of_run {s t : State C} {p : PortWord} (h : nextAction s = .run p t)
    (h' : nextAction (s.mapCause f) = .run p (t.mapCause f)) :
    walkerStepBy execOf (s.mapCause f) = seenBy (State.mapCause f) (walkerStepBy execOf s) := by
  rw [walkerStepBy_run h, walkerStepBy_run h', execOf_mapCause]

theorem walkerStepBy_mapCause (s : State C) :
    walkerStepBy execOf (s.mapCause f) = seenBy (State.mapCause f) (walkerStepBy execOf s) := by
  cases hst : s.st with
  | idle =>
    cases hc : s.cmd with
    | nil => exact walkerStepBy_mapCause_of_move f (nextAction_idle_wait hst hc) (nextAction_idle_wait hst hc) rfl
    | cons w rest =>
      exact walkerStepBy_mapCause_of_run f (nextAction_idle_take hst hc)
        (nextAction_idle_take (s := s.mapCause f) hst hc)
  | walk =>
    cases hb : s.memBusy with
    | true => exact walkerStepBy_mapCause_of_move f (nextAction_walk_wait hst hb) (nextAction_walk_wait hst hb) rfl
    | false => exact walkerStepBy_mapCause_of_move f (nextAction_walk_issue hst hb) (nextAction_walk_issue hst hb) rfl
  | rdWait =>
    have ha' := pendingAnswer_mapCause f s
    rcases ha : pendingAnswer s with _ | e | c <;> rw [ha] at ha'
    · exact walkerStepBy_mapCause_of_move f (nextAction_rdWait_wait hst ha) (nextAction_rdWait_wait hst ha') rfl
    · exact walkerStepBy_mapCause_of_run f (nextAction_rdWait_entry hst ha)
        (nextAction_rdWait_entry (s := s.mapCause f) hst ha')
    · exact walkerStepBy_mapCause_of_move f (nextAction_rdWait_error hst ha) (nextAction_rdWait_error hst ha') rfl
  | resp =>
    cases hb : s.hostBusy with
    | true => exact walkerStepBy_mapCause_of_move f (nextAction_resp_wait hst hb) (nextAction_resp_wait hst hb) rfl
    | false =>
      exact walkerStepBy_mapCause_of_move f (nextAction_resp_deliver hst hb) (nextAction_resp_deliver hst hb)
        (deliverResponse_mapCause f s)

theorem stepOf_mapCause (s : State C) : stepOf (s.mapCause f) = seenBy (State.mapCause f) (stepOf s) := by
  simp only [stepOf, stepBy, envTick_mapCause]
  cases envTick s with
  | next t => exact walkerStepBy_mapCause f t
  | fault r => rfl
  | refused r => rfl

end

/-- Settles O54: the batch and the walker's own step commute with the map, and an error's cause goes into the
response. -/
theorem causesAreCarriedVerbatim : Obligations.CausesAreCarriedVerbatim := by
  refine ⟨fun C D => stepOf_mapCause, fun f s => ?_, fun C c s he hst ha => ?_⟩
  · rw [step_eq_stepOf, step_eq_stepOf]
    exact stepOf_mapCause f s
  · rw [stepOf, stepBy_of_env_nil he,
      walkerStepBy_move (nextAction_rdWait_error hst (pendingAnswer_of_offered ha))]
    rfl

end Sys2Proof.Machine
end

section
/-! PROOFS. Walker instances share nothing (60_exceptions.md R144). -/

namespace Sys2Proof.Machine

variable {Cause : Type}

/-! ### Reading and replacing instances -/

theorem Platform.instanceAt_setAt_other (p : Platform Cause) (s : State Cause) {j k : Nat} (h : j ≠ k) :
    (p.setAt s j).instanceAt k = p.instanceAt k := by
  cases j with
  | zero =>
    cases k with
    | zero => exact absurd rfl h
    | succ k => rfl
  | succ j =>
    cases k with
    | zero => rfl
    | succ k => exact List.getElem?_set_ne fun hjk => h (congrArg (· + 1) hjk)

theorem Platform.instanceAt_setAt_self {p : Platform Cause} {s : State Cause} {k : Nat}
    (h : p.instanceAt k = some s) (t : State Cause) : (p.setAt t k).instanceAt k = some t := by
  cases k with
  | zero => rfl
  | succ k =>
    obtain ⟨hk, -⟩ := List.getElem?_eq_some_iff.mp h
    exact List.getElem?_set_self hk

theorem Platform.count_setAt (p : Platform Cause) (s : State Cause) (k : Nat) : (p.setAt s k).count = p.count := by
  cases k with
  | zero => rfl
  | succ k => simp only [Platform.count, Platform.setAt, List.length_set]

/-- Replacing two instances gives the same in either order. -/
theorem Platform.setAt_comm (p : Platform Cause) (s t : State Cause) {j k : Nat} (h : j ≠ k) :
    (p.setAt s j).setAt t k = (p.setAt t k).setAt s j := by
  cases j with
  | zero =>
    cases k with
    | zero => exact absurd rfl h
    | succ k => rfl
  | succ j =>
    cases k with
    | zero => rfl
    | succ k =>
      simp only [Platform.setAt]
      rw [List.set_comm _ _ fun hjk => h (congrArg (· + 1) hjk)]

/-! ### The step of one walker -/

theorem Platform.stepAt_of_instance {p : Platform Cause} {k : Nat} {s t : State Cause} (hs : p.instanceAt k = some s)
    (ht : stepOf s = .next t) : Platform.stepAt k p = .next (p.setAt t k) := by
  simp only [Platform.stepAt, hs, ht]

theorem Platform.stepAt_of_no_instance {p : Platform Cause} {k : Nat} (h : p.instanceAt k = none) :
    Platform.stepAt k p = .next p := by
  simp only [Platform.stepAt, h]

/-- A step that answers replaces its walker's state by that of its own step, or there is no such walker. -/
theorem Platform.stepAt_cases {p q : Platform Cause} {k : Nat} (h : Platform.stepAt k p = .next q) :
    (p.instanceAt k = none ∧ q = p) ∨
      ∃ s t, p.instanceAt k = some s ∧ stepOf s = .next t ∧ q = p.setAt t k := by
  cases hs : p.instanceAt k with
  | none =>
    rw [Platform.stepAt_of_no_instance hs] at h
    exact .inl ⟨rfl, (Host.Outcome.next.inj h).symm⟩
  | some s =>
    simp only [Platform.stepAt, hs] at h
    split at h
    · next t ht => exact .inr ⟨s, t, rfl, ht, (Host.Outcome.next.inj h).symm⟩
    · cases h
    · cases h

/-- The frame of a step: every other walker, and how many there are. -/
theorem Platform.stepAt_frame {p q : Platform Cause} {j k : Nat} (hjk : j ≠ k) (h : Platform.stepAt j p = .next q) :
    q.instanceAt k = p.instanceAt k ∧ q.count = p.count := by
  rcases Platform.stepAt_cases h with ⟨-, rfl⟩ | ⟨s, t, -, -, rfl⟩
  · exact ⟨rfl, rfl⟩
  · exact ⟨p.instanceAt_setAt_other t hjk, p.count_setAt t j⟩

/-- Steps of two instances may be taken in either order. -/
theorem Platform.stepAt_comm {p q r : Platform Cause} {j k : Nat} (hjk : j ≠ k) (hj : Platform.stepAt j p = .next q)
    (hk : Platform.stepAt k p = .next r) :
    ∃ u, Platform.stepAt k q = .next u ∧ Platform.stepAt j r = .next u := by
  obtain ⟨hqk, -⟩ := Platform.stepAt_frame hjk hj
  obtain ⟨hrj, -⟩ := Platform.stepAt_frame hjk.symm hk
  rcases Platform.stepAt_cases hj with ⟨hnone, rfl⟩ | ⟨s, t, hs, ht, rfl⟩
  · exact ⟨r, hk, Platform.stepAt_of_no_instance (hrj.trans hnone)⟩
  · rcases Platform.stepAt_cases hk with ⟨hnone, rfl⟩ | ⟨s', t', hs', ht', rfl⟩
    · exact ⟨_, Platform.stepAt_of_no_instance (hqk.trans hnone), hj⟩
    · refine ⟨_, Platform.stepAt_of_instance (hqk.trans hs') ht', ?_⟩
      rw [Platform.stepAt_of_instance (hrj.trans hs) ht, p.setAt_comm t t' hjk]

/-- Settles O55, from what a step of one walker replaces. -/
theorem walkerInstancesAreIndependent : Obligations.WalkerInstancesAreIndependent := by
  refine ⟨fun _ p q j k => Platform.stepAt_frame, fun _ p q r j k => Platform.stepAt_comm,
    fun _ p k s t hs ht => ⟨_, Platform.stepAt_of_instance hs ht, Platform.instanceAt_setAt_self hs t⟩,
    fun _ n k hk => ?_⟩
  cases k with
  | zero => rfl
  | succ k => exact (List.getElem?_replicate).trans (if_pos hk)

end Sys2Proof.Machine
end

section
/-! PROOFS. Bounds: the reads of the pseudocode's walk (43_walker.md R121) and the steps of a command
(70_reset_and_hazards.md R162). -/

namespace Sys2Proof.Machine

/-! ### The number of reads -/

/-- The reads of a walk from the level with code `n` on, and its outcome: it ends at the level of its last read, with a
FAULT or with a page of that level. -/
def WalkResult.EndsAtItsLevel (n : Nat) (r : WalkResult) : Prop :=
  r.reads.length + n = r.response.level.code.toNat + 1 ∧
    (r.response.status = .fault ∨ r.response.status = .resolved ∧ leafSize r.response.level = some r.response.size)

/-- A visit ends the walk at its level, or makes one read more than what follows it. -/
theorem visitEntry_endsAtItsLevel {rd : Level → Word → ReadResp} {L : Level} {addr : Word} {present : Word → WalkResult}
    (h : ∀ e, (present e).EndsAtItsLevel (L.code.toNat + 1)) :
    (visitEntry rd L addr present).EndsAtItsLevel L.code.toNat := by
  unfold visitEntry
  split
  · exact ⟨Nat.add_comm _ _, .inl rfl⟩
  · next e _ =>
    split
    · obtain ⟨hreads, hends⟩ := h e
      exact ⟨(Nat.succ_add_eq_add_succ _ _).trans hreads, hends⟩
    · exact ⟨Nat.add_comm _ _, .inl rfl⟩

/-- A page ends the walk at its level, with no further read. -/
theorem resolved_endsAtItsLevel {L : Level} {size : PageSize} (h : leafSize L = some size) (pa flags : Word) :
    WalkResult.EndsAtItsLevel (L.code.toNat + 1) ⟨[], resolvedResponse pa size L flags⟩ :=
  ⟨Nat.zero_add _, .inr ⟨rfl, h⟩⟩

theorem walkPte_endsAtItsLevel (rd : Level → Word → ReadResp) (va base : Word) :
    (walkPte rd va base).EndsAtItsLevel 3 :=
  visitEntry_endsAtItsLevel (L := .pte) fun _ => resolved_endsAtItsLevel rfl _ _

theorem walkPde_endsAtItsLevel (rd : Level → Word → ReadResp) (va base : Word) :
    (walkPde rd va base).EndsAtItsLevel 2 :=
  visitEntry_endsAtItsLevel (L := .pde) fun e => by
    split
    · exact resolved_endsAtItsLevel (L := .pde) rfl _ _
    · exact walkPte_endsAtItsLevel rd va _

theorem walkPdpte_endsAtItsLevel (rd : Level → Word → ReadResp) (va base : Word) :
    (walkPdpte rd va base).EndsAtItsLevel 1 :=
  visitEntry_endsAtItsLevel (L := .pdpte) fun e => by
    split
    · exact resolved_endsAtItsLevel (L := .pdpte) rfl _ _
    · exact walkPde_endsAtItsLevel rd va _

theorem translateSpec_endsAtItsLevel (rd : Level → Word → ReadResp) (root va : Word) :
    (translateSpec rd root va).EndsAtItsLevel 0 :=
  visitEntry_endsAtItsLevel (L := .pml4) fun _ => walkPdpte_endsAtItsLevel rd va _

/-- Settles O49: the walk ends at the level of its last read, and the level of a page gives its size. -/
theorem readCountFollowsFromTheOutcome : Obligations.ReadCountFollowsFromTheOutcome := by
  intro rd root va
  obtain ⟨hreads, hends⟩ := translateSpec_endsAtItsLevel rd root va
  generalize translateSpec rd root va = r at hreads hends
  have hle := code_le_three r.response.level
  refine ⟨⟨by omega, by omega⟩, hends.imp (fun hfault => ⟨hfault, hreads⟩) fun ⟨hresolved, hsize⟩ => ?_⟩
  refine ⟨hresolved, hreads.trans ?_, hsize⟩
  cases hlevel : r.response.level <;> rw [hlevel] at hsize
  · cases hsize
  · rw [← Option.some.inj hsize]; rfl
  · rw [← Option.some.inj hsize]; rfl
  · rw [← Option.some.inj hsize]; rfl

/-! ### The number of steps -/

/-- The most steps a state has before it is in IDLE when host and memory answer: two per read, and the delivery. -/
def stepsLeft (s : State) : Nat :=
  match s.st with
  | .idle => 0
  | .walk => 2 * (3 - s.lvlQ.code.toNat) + 3
  | .rdWait => 2 * (3 - s.lvlQ.code.toNat) + 2
  | .resp => 1

theorem stepsLeft_idle {s : State} (h : s.st = .idle) : stepsLeft s = 0 := by simp only [stepsLeft, h]

theorem stepsLeft_walk {s : State} (h : s.st = .walk) : stepsLeft s = 2 * (3 - s.lvlQ.code.toNat) + 3 := by
  simp only [stepsLeft, h]

theorem stepsLeft_rdWait {s : State} (h : s.st = .rdWait) : stepsLeft s = 2 * (3 - s.lvlQ.code.toNat) + 2 := by
  simp only [stepsLeft, h]

theorem stepsLeft_resp {s : State} (h : s.st = .resp) : stepsLeft s = 1 := by simp only [stepsLeft, h]

theorem stepsLeft_le_nine (s : State) : stepsLeft s ≤ 9 := by
  unfold stepsLeft
  split <;> omega

/-- No outside move is left, and host and memory answer at once. -/
def Prompt (s : State) : Prop := s.env = [] ∧ s.memBusy = false ∧ s.hostBusy = false

theorem Prompt.transition {s t : State} (h : Prompt s) (hT : Transition s t) : Prompt t := by
  obtain ⟨he, hmem, hhost⟩ := h
  obtain ⟨-, -, -, henv, hhost', hmem'⟩ := hT.keeps_platform
  exact ⟨henv.trans he, hmem'.trans hmem, hhost'.trans hhost⟩

/-- With nothing to wait for a transition outside IDLE comes closer to IDLE. -/
theorem Transition.stepsLeft_lt {s t : State} (hT : Transition s t) (h : Prompt s) (hst : s.st ≠ .idle) :
    stepsLeft t < stepsLeft s := by
  obtain ⟨-, hmem, hhost⟩ := h
  cases hT with
  | waits hwait =>
    rcases hwait with ⟨hidle, -⟩ | ⟨-, hb⟩ | ⟨-, ha⟩ | ⟨-, hb⟩
    · exact absurd hidle hst
    · rw [hmem] at hb; cases hb
    · cases hr : s.rdRsp <;> simp [pendingAnswer, hr, hmem] at ha
    · rw [hhost] at hb; cases hb
  | starts _ _ hidle | answers _ _ _ hidle => exact absurd hidle hst
  | issues hwalk =>
    rw [stepsLeft_walk hwalk, stepsLeft_rdWait rfl, issueRead_lvlQ]
    omega
  | notPresent _ hwait | resolves _ _ _ hwait | fails _ hwait =>
    rw [stepsLeft_rdWait hwait, stepsLeft_resp rfl]
    omega
  | goesOn e hwait _ _ hleaf =>
    have hcode := code_nextLevel hleaf
    have hle := code_le_three (nextLevel s.lvlQ)
    rw [stepsLeft_rdWait hwait, stepsLeft_walk rfl, enterLevel_lvlQ]
    omega
  | delivers hresp =>
    rw [stepsLeft_resp hresp, stepsLeft_idle rfl]
    decide

theorem run_succ_of_transition {s t : State} (he : s.env = []) (hT : Transition s t) (k : Nat) :
    run (k + 1) s = run k t := by
  simp only [run, step_of_transition he hT]

/-- With nothing to wait for the walker is in IDLE after at most `stepsLeft` steps, and has taken no command. -/
theorem run_reaches_idle {n : Nat} {s : State} (h : Prompt s) (hn : stepsLeft s ≤ n) :
    ∃ k t, k ≤ n ∧ run k s = .next t ∧ t.st = .idle ∧ t.cmd = s.cmd := by
  induction n generalizing s with
  | zero =>
    cases hst : s.st with
    | idle => exact ⟨0, s, le_rfl, rfl, hst, rfl⟩
    | walk | rdWait | resp => simp [stepsLeft, hst] at hn
  | succ n ih =>
    by_cases hst : s.st = .idle
    · exact ⟨0, s, Nat.zero_le _, rfl, hst, rfl⟩
    · obtain ⟨u, -, hmove⟩ := walkerStep_move_exists s
      have hT := transition_of_walkerMove hmove
      obtain ⟨k, t, hk, hrun, hidle, hcmd⟩ := ih (h.transition hT) (by have := hT.stepsLeft_lt h hst; omega)
      obtain ⟨he, -⟩ := h
      exact ⟨k + 1, t, by omega, (run_succ_of_transition he hT k).trans hrun, hidle, hcmd.trans (hT.keeps_cmd hst)⟩

/-- A command offered in IDLE is taken off the queue, and the walker leaves IDLE. -/
theorem Transition.takes_command {s t : State} (hT : Transition s t) (hst : s.st = .idle) (hcmd : s.cmd ≠ []) :
    t.cmd = s.cmd.tail ∧ t.st ≠ .idle := by
  cases hT with
  | waits hwait => simp [hst, hcmd] at hwait
  | starts w rest _ hw => rw [hw]; exact ⟨rfl, by simp⟩
  | answers w rest r _ hw => rw [hw]; exact ⟨rfl, by simp⟩
  | issues hst' | notPresent _ hst' | goesOn _ hst' | resolves _ _ _ hst' | fails _ hst' | delivers hst' =>
    rw [hst] at hst'; cases hst'

/-- Settles O50: a bound that every step lowers, at most 9 in every state. -/
theorem commandEndsWithinTenSteps : Obligations.CommandEndsWithinTenSteps := by
  refine ⟨fun s he hmem hhost => ?_, fun s he hmem hhost hst hcmd => ?_⟩
  · obtain ⟨k, t, hk, hrun, hidle, -⟩ := run_reaches_idle ⟨he, hmem, hhost⟩ (stepsLeft_le_nine s)
    exact ⟨k, t, hk, hrun, hidle⟩
  · obtain ⟨u, -, hmove⟩ := walkerStep_move_exists s
    have hT := transition_of_walkerMove hmove
    obtain ⟨htail, hbusy⟩ := hT.takes_command hst hcmd
    have hprompt : Prompt u := Prompt.transition ⟨he, hmem, hhost⟩ hT
    obtain ⟨k, t, hk, hrun, hidle, hkeeps⟩ := run_reaches_idle hprompt (stepsLeft_le_nine u)
    have hpos : k ≠ 0 := by
      rintro rfl
      obtain rfl := Host.Outcome.next.inj hrun
      exact hbusy hidle
    exact ⟨k + 1, t, by omega, by omega, (run_succ_of_transition he hT k).trans hrun, hidle, hkeeps.trans htail⟩

end Sys2Proof.Machine
end

section
/-! PROOFS. TRANSLATE runs the pseudocode (43_walker.md R109): the walker from the acceptance to the delivery, read by
read, beside `translateSpec`. The reads are answered by the moves of a script or by the platform's image. -/

namespace Sys2Proof.Machine

/-! ### The layout as the pseudocode writes it -/

/-- A slot of a table, as a sum, is its entry address. -/
theorem entryAddress_eq_slotAddress (base va : Word) (L : Level) :
    entryAddress (base &&& tableBaseMask) (idx L va) =
      slotAddress (base &&& tableBaseMask) (va.extractLsb' (shift L) 9) := by
  rw [entryAddress_masked_base, slotAddress, BitVec.add_eq_or_of_and_eq_zero _ _ (base_slot_disjoint base _)]

/-- A page offset is the field of the bits below the page's own. -/
theorem and_offsetMask_eq_field {size : PageSize} {n : Nat}
    (h : ∀ i : Fin 64, (offsetMask size).getLsbD i = decide (i.val < n)) (va : Word) :
    va &&& offsetMask size = (va.extractLsb' 0 n).setWidth 64 := by
  apply word_ext
  intro i
  rw [BitVec.getLsbD_and, h, BitVec.getLsbD_setWidth, BitVec.getLsbD_extractLsb', Nat.zero_add]
  simp [Bool.and_comm]

/-- The address of a leaf as a sum (43_walker.md R119). -/
theorem leafAddress_eq_add {L : Level} {size : PageSize} {mask : Word} (hsize : leafSize L = some size)
    (hmask : addrMask L true = some mask) (e va : Word) :
    leafAddress mask size e va = (e &&& mask) + (va &&& offsetMask size) := by
  obtain ⟨hdisjoint, -⟩ := leafMask_splits hsize hmask
  apply BitVec.eq_of_toNat_eq
  rw [BitVec.toNat_add, ← leafAddress_toNat hdisjoint, Nat.mod_eq_of_lt (BitVec.isLt _)]

/-! ### How the reads of a walk are answered -/

/-- The reads still to come are answered by `rd`: by the moves of a script that leaves `later` after the delivery, or by
the image with no outside move left. -/
def Serves (rd : Level → Word → ReadResp) (later : List (List EnvMove)) (reads : List (Level × Word)) (s : State) :
    Prop :=
  s.env = (reads.flatMap fun p => [[], [.answer (rd p.1 p.2)]]) ++ [] :: later ∨
    (s.env = [] ∧ later = [] ∧ ∀ L a, rd L a = memoryAnswer s a)

/-- The state in RD_WAIT after the read of `s` is issued, with the answer `r` offered and `moves` still to come. -/
def answeredRead (s : State) (r : ReadResp) (moves : List (List EnvMove)) : State :=
  { issueRead s with rdRsp := some r, env := moves }

theorem run_add_two {s u t : State} (h : step s = .next u) (h' : step u = .next t) (k : Nat) :
    run (k + 2) s = run k t := by
  simp only [run, h, h']

section
variable {rd : Level → Word → ReadResp} {later : List (List EnvMove)} {s t : State} (hst : s.st = .walk)
  (ha : s.rdRsp = none) (hb : s.memBusy = false)
include hst ha hb

/-- A read that a script answers takes two steps, and goes on from the answered state. -/
theorem run_of_scripted_read {r : ReadResp} {moves : List (List EnvMove)} (he : s.env = [] :: [.answer r] :: moves)
    (hT : Transition (answeredRead s r moves) t) (k : Nat) : run (k + 2) s = run k t := by
  have hissue : step s = .next { issueRead s with env := [.answer r] :: moves } :=
    (step_of_empty_batch he).trans
      (walkerStep_of_transition (.issues (s := { s with env := [.answer r] :: moves }) hst hb))
  have hdue : mayAnswer { issueRead s with env := moves } = true := (mayAnswer_iff _).mpr ⟨rfl, ha⟩
  have hanswer : envTick { issueRead s with env := [.answer r] :: moves } = .next (answeredRead s r moves) := by
    simp only [envTick, applyBatch, applyMove_answer_due hdue]
    rfl
  exact run_add_two hissue ((step_of_envTick hanswer).trans (walkerStep_of_transition hT)) k

/-- A read that the image answers takes two steps, and goes on as if that answer had been offered. -/
theorem run_of_image_read (he : s.env = []) (hT : Transition (answeredRead s (memoryAnswer s s.eaQ) s.env) t)
    (k : Nat) : run (k + 2) s = run k t := by
  have himage : step (issueRead s) = walkerStep (answeredRead s (memoryAnswer s s.eaQ) s.env) :=
    (step_of_env_nil (s := issueRead s) he).trans (walkerStep_of_image (s := issueRead s) rfl ha hb)
  exact run_add_two (step_of_transition he (.issues hst hb)) (himage.trans (walkerStep_of_transition hT)) k

/-- In WALK a read that is served takes two steps, and goes on from the answered state. -/
theorem Serves.read {reads : List (Level × Word)} {L : Level} (h : Serves rd later ((L, s.eaQ) :: reads) s) :
    ∃ moves, Serves rd later reads { s with env := moves } ∧
      ∀ t, Transition (answeredRead s (rd L s.eaQ) moves) t → ∀ k, run (k + 2) s = run k t := by
  rcases h with he | ⟨he, hlater, himage⟩
  · exact ⟨_, .inl rfl, fun t hT => run_of_scripted_read hst ha hb he hT⟩
  · exact ⟨s.env, .inr ⟨he, hlater, himage⟩, fun t hT =>
      run_of_image_read hst ha hb he (himage L s.eaQ ▸ hT)⟩

end

/-- In RESP, with no read still to come, the held response is delivered in one step. -/
theorem Serves.deliver {rd : Level → Word → ReadResp} {later : List (List EnvMove)} {s : State}
    (h : Serves rd later [] s) (hst : s.st = .resp) (hb : s.hostBusy = false) :
    run 1 s = .next { deliverResponse s with env := later } := by
  rcases h with he | ⟨he, rfl, -⟩
  · simp only [run, step_of_empty_batch (moves := later) he,
      walkerStep_of_transition (.delivers (s := { s with env := later }) hst hb)]
    rfl
  · simp only [run, step_of_transition he (.delivers hst hb), ← he]
    rfl

/-! ### The end of a walk -/

/-- What has happened from `s` to the end `t` of a walk with the result `r`: its reads were issued and its response
delivered, and the latched registers and the platform are as they were. -/
structure WalkEnds (r : WalkResult) (later : List (List EnvMove)) (s t : State) : Prop where
  st : t.st = .idle
  rspQ : t.rspQ = none
  rdRsp : t.rdRsp = none
  cmd : t.cmd = s.cmd
  cmdQ : t.cmdQ = s.cmdQ
  vaQ : t.vaQ = s.vaQ
  env : t.env = later
  mem : t.mem = s.mem
  failing : t.failing = s.failing
  reads : t.rdReqLog = s.rdReqLog ++ r.reads
  response : t.rspLog = s.rspLog ++ [r.response]

/-- From the answered state `a` on the walker makes the further reads of `r`, delivers its response and is in IDLE. -/
def GoesOnAs (r : WalkResult) (later : List (List EnvMove)) (a : State) : Prop :=
  ∃ u t, Transition a u ∧ run (2 * r.reads.length + 1) u = .next t ∧ WalkEnds r later a t

/-- An answer that gives a response ends the walk. -/
theorem goesOnAs_of_respond {rd : Level → Word → ReadResp} {later : List (List EnvMove)} {a : State} {r : Response}
    (hserves : Serves rd later [] a) (hb : a.hostBusy = false) (hT : Transition a (respond r (takeAnswer a))) :
    GoesOnAs ⟨[], r⟩ later a :=
  ⟨_, _, hT, Serves.deliver (s := respond r (takeAnswer a)) hserves rfl hb,
    { st := rfl, rspQ := rfl, rdRsp := rfl, cmd := rfl, cmdQ := rfl, vaQ := rfl, env := rfl, mem := rfl, failing := rfl
      reads := (List.append_nil _).symm, response := rfl }⟩

/-! ### One visit -/

/-- The walker is about to read the entry at `addr` of level `L`, with host and memory ready. -/
structure AboutToRead (L : Level) (addr : Word) (s : State) : Prop where
  st : s.st = .walk
  lvlQ : s.lvlQ = L
  eaQ : s.eaQ = addr
  rdRsp : s.rdRsp = none
  memBusy : s.memBusy = false
  hostBusy : s.hostBusy = false

/-- The levels from a level on. -/
def levelsFrom : Level → List Level
  | .pml4 => [.pml4, .pdpte, .pde, .pte]
  | .pdpte => [.pdpte, .pde, .pte]
  | .pde => [.pde, .pte]
  | .pte => [.pte]

/-- The levels below a level. -/
def levelsBelow (L : Level) : List Level := (levelsFrom L).tail

theorem levelsFrom_eq_cons (L : Level) : levelsFrom L = L :: levelsBelow L := by cases L <;> rfl

/-- The walker runs the walk `r` from level `L` on: the reads of `r`, its response, and IDLE. -/
def RunsWalk (rd : Level → Word → ReadResp) (later : List (List EnvMove)) (L : Level) (r : WalkResult) (s : State) :
    Prop :=
  Serves rd later ((levelsFrom L).zip r.reads) s →
    ∃ t, run (2 * r.reads.length + 1) s = .next t ∧ WalkEnds r later s t

section
variable {rd : Level → Word → ReadResp} {later : List (List EnvMove)} {L : Level} {addr : Word} {s : State}

/-- A read and the walk that follows its answer. -/
theorem AboutToRead.runs_cons (h : AboutToRead L addr s) {r : WalkResult}
    (hrest : ∀ moves, Serves rd later ((levelsBelow L).zip r.reads) { s with env := moves } →
      GoesOnAs r later (answeredRead s (rd L addr) moves)) :
    RunsWalk rd later L ⟨addr :: r.reads, r.response⟩ s := by
  intro hserves
  obtain rfl := h.eaQ
  rw [levelsFrom_eq_cons, List.zip_cons_cons] at hserves
  obtain ⟨moves, hserves', hrun⟩ := Serves.read h.st h.rdRsp h.memBusy hserves
  obtain ⟨u, t, hT, hu, hends⟩ := hrest moves hserves'
  exact ⟨t, (hrun u hT _).trans hu, { hends with reads := by rw [hends.reads]; exact List.append_assoc _ _ _ }⟩

/-- A visit of the pseudocode is a read of the walker; what follows a present entry is left to `hpresent`. -/
theorem AboutToRead.runs_visitEntry (h : AboutToRead L addr s) {present : Word → WalkResult}
    (hpresent : ∀ e moves, e.getLsbD 0 = true →
      Serves rd later ((levelsBelow L).zip (present e).reads) { s with env := moves } →
      GoesOnAs (present e) later (answeredRead s (.ok e) moves)) :
    RunsWalk rd later L (visitEntry rd L addr present) s := by
  have ends {reason : Reason} {cause : Option ReadCause} (moves : List (List EnvMove))
      (hserves : Serves rd later ((levelsBelow L).zip []) { s with env := moves })
      (hT : Transition (answeredRead s (rd L addr) moves)
        (respond (faultResponse s.lvlQ reason cause) (takeAnswer (answeredRead s (rd L addr) moves)))) :
      GoesOnAs ⟨[], faultResponse L reason cause⟩ later (answeredRead s (rd L addr) moves) := by
    rw [List.zip_nil_right] at hserves
    rw [h.lvlQ] at hT
    exact goesOnAs_of_respond (rd := rd) hserves h.hostBusy hT
  unfold visitEntry
  split
  · next c hc => exact h.runs_cons fun moves hserves => ends moves hserves (.fails c rfl (congrArg some hc))
  · next e he =>
    split
    · next h0 => exact h.runs_cons fun moves hserves => he ▸ hpresent e moves h0 hserves
    · next h0 =>
      exact h.runs_cons fun moves hserves =>
        ends moves hserves (.notPresent e rfl (congrArg some he) (Bool.eq_false_of_not_eq_true h0))

/-! ### The levels -/

/-- A present leaf ends the walk with its frame plus the offset, a field of `n` bits (R119, R120). -/
theorem goesOnAs_of_leaf {size : PageSize} {mask e : Word} {n : Nat} (h : AboutToRead L addr s)
    (hsize : leafSize L = some size) (hmask : addrMask L true = some mask) (h0 : e.getLsbD 0 = true)
    (hleaf : isLeafAt L e = true) (hoffset : ∀ i : Fin 64, (offsetMask size).getLsbD i = decide (i.val < n))
    {moves : List (List EnvMove)} (hserves : Serves rd later ((levelsBelow L).zip []) { s with env := moves }) :
    GoesOnAs
      ⟨[], resolvedResponse ((e &&& mask) + (s.vaQ.extractLsb' 0 n).setWidth 64) size L (flagsUnder mask e)⟩
      later (answeredRead s (.ok e) moves) := by
  rw [List.zip_nil_right] at hserves
  rw [← and_offsetMask_eq_field hoffset, ← leafAddress_eq_add hsize hmask]
  obtain rfl := h.lvlQ
  exact goesOnAs_of_respond (rd := rd) hserves h.hostBusy (.resolves e size mask rfl rfl h0 hleaf hsize hmask)

/-- The state in WALK after the answer to the read of `s` was a table pointer. -/
def followedPointer (s : State) (e : Word) (moves : List (List EnvMove)) : State :=
  enterLevel (nextLevel s.lvlQ) (e &&& tableBaseMask) (takeAnswer (answeredRead s (.ok e) moves))

/-- A present table pointer goes on with the walk of the table it points to (R115). -/
theorem goesOnAs_of_table {e : Word} {r : WalkResult} {moves : List (List EnvMove)} (h : AboutToRead L addr s)
    (h0 : e.getLsbD 0 = true) (hleaf : isLeafAt L e = false) (hbelow : levelsBelow L = levelsFrom (nextLevel L))
    (hnext :
      AboutToRead (nextLevel L) (slotAddress (e &&& tableBaseMask) (s.vaQ.extractLsb' (shift (nextLevel L)) 9))
        (followedPointer s e moves) → RunsWalk rd later (nextLevel L) r (followedPointer s e moves))
    (hserves : Serves rd later ((levelsBelow L).zip r.reads) { s with env := moves }) :
    GoesOnAs r later (answeredRead s (.ok e) moves) := by
  obtain ⟨-, rfl, -, -, hmem, hhost⟩ := h
  have hready : AboutToRead (nextLevel s.lvlQ)
      (slotAddress (e &&& tableBaseMask) (s.vaQ.extractLsb' (shift (nextLevel s.lvlQ)) 9))
      (followedPointer s e moves) :=
    { st := rfl, lvlQ := rfl, eaQ := entryAddress_eq_slotAddress e s.vaQ _, rdRsp := rfl, memBusy := hmem
      hostBusy := hhost }
  rw [hbelow] at hserves
  obtain ⟨t, hrun, hends⟩ := hnext hready hserves
  exact ⟨_, t, .goesOn e rfl rfl h0 hleaf, hrun, { hends with }⟩

theorem walkPte_runs {base : Word} (h : AboutToRead .pte (slotAddress base (s.vaQ.extractLsb' 12 9)) s) :
    RunsWalk rd later .pte (walkPte rd s.vaQ base) s :=
  h.runs_visitEntry fun _ _ h0 hserves =>
    goesOnAs_of_leaf h (size := .size4K) rfl rfl h0 rfl (by decide) hserves

theorem walkPde_runs {base : Word} (h : AboutToRead .pde (slotAddress base (s.vaQ.extractLsb' 21 9)) s) :
    RunsWalk rd later .pde (walkPde rd s.vaQ base) s :=
  h.runs_visitEntry fun e _ h0 hserves => by
    by_cases h7 : e.getLsbD 7 = true
    · rw [if_pos h7] at hserves ⊢
      exact goesOnAs_of_leaf h (size := .size2M) rfl rfl h0 h7 (by decide) hserves
    · rw [if_neg h7] at hserves ⊢
      exact goesOnAs_of_table h h0 (Bool.eq_false_of_not_eq_true h7) rfl
        (walkPte_runs (s := followedPointer s e _)) hserves

theorem walkPdpte_runs {base : Word} (h : AboutToRead .pdpte (slotAddress base (s.vaQ.extractLsb' 30 9)) s) :
    RunsWalk rd later .pdpte (walkPdpte rd s.vaQ base) s :=
  h.runs_visitEntry fun e _ h0 hserves => by
    by_cases h7 : e.getLsbD 7 = true
    · rw [if_pos h7] at hserves ⊢
      exact goesOnAs_of_leaf h (size := .size1G) rfl rfl h0 h7 (by decide) hserves
    · rw [if_neg h7] at hserves ⊢
      exact goesOnAs_of_table h h0 (Bool.eq_false_of_not_eq_true h7) rfl
        (walkPde_runs (s := followedPointer s e _)) hserves

theorem translateSpec_runs {root : Word}
    (h : AboutToRead .pml4 (slotAddress (root &&& tableBaseMask) (s.vaQ.extractLsb' 39 9)) s) :
    RunsWalk rd later .pml4 (translateSpec rd root s.vaQ) s :=
  h.runs_visitEntry fun e _ h0 hserves =>
    goesOnAs_of_table h h0 rfl rfl (walkPdpte_runs (s := followedPointer s e _)) hserves

end

/-! ### From the acceptance -/

/-- From IDLE with a TRANSLATE offered and its reads served the walker runs the walk: one step for the acceptance, two
for each read, one for the delivery (R162). -/
theorem translate_runs {rd : Level → Word → ReadResp} {later moves : List (List EnvMove)} {s : State} {w : CmdWord}
    {rest : List CmdWord} (hst : s.st = .idle) (ha : s.rdRsp = none) (hmem : s.memBusy = false)
    (hhost : s.hostBusy = false) (hcmd : s.cmd = w :: rest) (hop : cmdOp w = 0)
    (hfirst : step s = walkerStep { s with env := moves })
    (hserves : Serves rd later ([.pml4, .pdpte, .pde, .pte].zip (translateSpec rd (cmdOpa w) (cmdOpb w)).reads)
      { s with env := moves }) :
    ∃ t, run (2 + 2 * (translateSpec rd (cmdOpa w) (cmdOpb w)).reads.length) s = .next t ∧
      WalkEnds (translateSpec rd (cmdOpa w) (cmdOpb w)) later
        (startWalk (cmdOpa w) (cmdOpb w) (takeCommand w rest { s with env := moves })) t := by
  have hstart := hfirst.trans (walkerStep_of_transition (.starts (s := { s with env := moves }) w rest hst hcmd hop))
  have hready : AboutToRead .pml4 (slotAddress (cmdOpa w &&& tableBaseMask) ((cmdOpb w).extractLsb' 39 9))
      (startWalk (cmdOpa w) (cmdOpb w) (takeCommand w rest { s with env := moves })) :=
    { st := rfl, lvlQ := rfl, eaQ := entryAddress_eq_slotAddress _ _ .pml4, rdRsp := ha, memBusy := hmem
      hostBusy := hhost }
  obtain ⟨t, hrun, hends⟩ := translateSpec_runs
    (s := startWalk (cmdOpa w) (cmdOpb w) (takeCommand w rest { s with env := moves })) hready hserves
  refine ⟨t, ?_, hends⟩
  rw [Nat.add_comm 2, run, hstart]
  exact hrun

/-- Settles O47: a script answers the reads of the walk it is made of. -/
theorem translateRunsThePseudocode : Obligations.TranslateRunsThePseudocode := by
  intro rd s w rest later hst ha hmem hhost hcmd hop henv
  have hscript : s.env =
      [] :: ((([.pml4, .pdpte, .pde, .pte].zip (translateSpec rd (cmdOpa w) (cmdOpb w)).reads).flatMap
        fun p => [[], [.answer (rd p.1 p.2)]]) ++ [] :: later) := by
    rw [henv, answeredScript, List.append_assoc]
    rfl
  obtain ⟨t, hrun, hends⟩ := translate_runs (rd := rd) (later := later) hst ha hmem hhost hcmd hop
    (step_of_empty_batch hscript) (.inl rfl)
  exact ⟨t, hrun, hends.st, hends.rspQ, hends.rdRsp, hends.cmd, hends.cmdQ, hends.vaQ, hends.env, hends.mem,
    hends.failing, hends.reads, hends.response⟩

/-- Settles O48: the image answers the reads of any walk. -/
theorem translateOverAnImageRunsThePseudocode : Obligations.TranslateOverAnImageRunsThePseudocode := by
  intro s w rest hst ha hmem hhost hcmd hop henv
  obtain ⟨t, hrun, hends⟩ := translate_runs (rd := fun _ a => memoryAnswer s a) (moves := s.env) hst ha hmem hhost hcmd
    hop (step_of_env_nil henv) (.inr ⟨henv, rfl, fun _ _ => rfl⟩)
  exact ⟨t, hrun, hends.st, hends.rspQ, hends.cmd, hends.mem, hends.reads, hends.response⟩

end Sys2Proof.Machine
end
